-- ==== Sys2Proof/Word.lean ====
section
/-! DEFINITION. The two bit widths of the block's interface: the byte every command operand and every
frame-buffer cell holds, and the 16-bit word of commands, response values and the CRC (00_scope.md R16). -/

namespace Sys2Proof

/-- One byte: an operand, a frame-buffer cell, the page counter (00_scope.md R16, 20_memory.md R60). -/
abbrev Byte := BitVec 8

/-- One 16-bit word: a command, a response value, a CRC (00_scope.md R16, 20_memory.md R65). -/
abbrev Word := BitVec 16

end Sys2Proof
end

