-- ==== Sys2Proof/Syntax.lean ====
section
/-! DEFINITION. The thirteen commands of 30_encoding.md R93, one constructor per row of the opcode table, each with
the operand form R91 gives it: a data byte `b`, a frame-buffer index `i`, a register number `r`, or none. -/

namespace Sys2Proof

/-- A command of the block (30_encoding.md R93). Indices and register numbers are unsigned numbers (R91, R92),
held as Nat; `Instr.wellFormed` says which of them a command word can carry (log entry 10). -/
inductive Instr where
  /-- RESET, opcode 0x01 (43_control.md R210). -/
  | reset
  /-- CLR_ERR, opcode 0x02 (43_control.md R211). -/
  | clrErr
  /-- READ_REG r, opcode 0x03 (43_control.md R212). -/
  | readReg (r : Nat)
  /-- CRC_CLEAR, opcode 0x10 (40_crc.md R127). -/
  | crcClear
  /-- CRC_BYTE b, opcode 0x11 (40_crc.md R128). -/
  | crcByte (b : Byte)
  /-- CRC_FINISH, opcode 0x12 (40_crc.md R129). -/
  | crcFinish
  /-- FB_DATA b, opcode 0x20 (41_frame.md R151). -/
  | fbData (b : Byte)
  /-- FB_END, opcode 0x21 (41_frame.md R152). -/
  | fbEnd
  /-- FB_READ i, opcode 0x22 (41_frame.md R153). -/
  | fbRead (i : Nat)
  /-- FB_ACK, opcode 0x23 (41_frame.md R154). -/
  | fbAck
  /-- FB_SENTINEL, opcode 0x24 (41_frame.md R155). -/
  | fbSentinel
  /-- PM_FEED b, opcode 0x30 (42_match.md R191). -/
  | pmFeed (b : Byte)
  /-- PM_CLEAR, opcode 0x31 (42_match.md R192). -/
  | pmClear
deriving DecidableEq, Repr

end Sys2Proof
end

