-- ==== Sys2Proof/WellFormed.lean ====
section
/-! DEFINITION. Which commands a command word can carry: an operand is an unsigned 8-bit number
(30_encoding.md R92), and every such number is encodable, out-of-range ones too (R91). -/

namespace Sys2Proof

/-- The register number or the index fits the operand byte; every other form always does. -/
def Instr.wellFormed : Instr → Bool
  | .readReg r => decide (r < 256)
  | .fbRead i => decide (i < 256)
  | .reset | .clrErr | .crcClear | .crcByte _ | .crcFinish | .fbData _ | .fbEnd | .fbAck | .fbSentinel
  | .pmFeed _ | .pmClear => true

end Sys2Proof
end

