-- ==== Sys2Proof/Decode.lean ====
section
/-! DEFINITION. The command word (30_encoding.md R90): its two fields, the decoder of R94, total on every 16-bit
word and rejecting by name, and after it the encoder of the opcode map R93. -/

namespace Sys2Proof

/-- `op`, bits 15:8 of a command word (30_encoding.md R90). -/
def opField (w : Word) : Byte := w.extractLsb' 8 8

/-- `x`, bits 7:0 of a command word (30_encoding.md R90). -/
def operandField (w : Word) : Byte := w.extractLsb' 0 8

/-- The word with opcode `op` and operand byte `x`: the spec's (op, x) concatenation (30_encoding.md R90, R99). -/
def commandWord (op x : Byte) : Word := op ++ x

/-- The two ways decoding rejects a word (30_encoding.md R94). -/
inductive DecodeError where
  /-- ERR_ILLEGAL_OPCODE: `op` is none of the thirteen opcodes (R95). -/
  | illegalOpcode
  /-- ERR_NONZERO_OPERAND: a command without operand whose `x` is not 0 (R94). -/
  | nonzeroOperand
deriving DecidableEq, Repr

/-- Operand form `-`: the operand byte must be 0 (30_encoding.md R91, R94). -/
def decodeBare (x : Byte) (i : Instr) : Except DecodeError Instr :=
  if x = 0 then .ok i else .error .nonzeroOperand

/-- Decoding one command word: the opcode check first, then the check of an absent operand (30_encoding.md R94). -/
def decode (w : Word) : Except DecodeError Instr :=
  let x := operandField w
  match opField w with
  | 0x01#8 => decodeBare x .reset
  | 0x02#8 => decodeBare x .clrErr
  | 0x03#8 => .ok (.readReg x.toNat)
  | 0x10#8 => decodeBare x .crcClear
  | 0x11#8 => .ok (.crcByte x)
  | 0x12#8 => decodeBare x .crcFinish
  | 0x20#8 => .ok (.fbData x)
  | 0x21#8 => decodeBare x .fbEnd
  | 0x22#8 => .ok (.fbRead x.toNat)
  | 0x23#8 => decodeBare x .fbAck
  | 0x24#8 => decodeBare x .fbSentinel
  | 0x30#8 => .ok (.pmFeed x)
  | 0x31#8 => decodeBare x .pmClear
  | _ => .error .illegalOpcode

/-- The opcode of each command (30_encoding.md R93). -/
def Instr.opcode : Instr → Byte
  | .reset => 0x01
  | .clrErr => 0x02
  | .readReg _ => 0x03
  | .crcClear => 0x10
  | .crcByte _ => 0x11
  | .crcFinish => 0x12
  | .fbData _ => 0x20
  | .fbEnd => 0x21
  | .fbRead _ => 0x22
  | .fbAck => 0x23
  | .fbSentinel => 0x24
  | .pmFeed _ => 0x30
  | .pmClear => 0x31

/-- The operand byte of each command; 0 where it takes none (30_encoding.md R91, R92). -/
def Instr.operandByte : Instr → Byte
  | .readReg r => BitVec.ofNat 8 r
  | .fbRead i => BitVec.ofNat 8 i
  | .crcByte b | .fbData b | .pmFeed b => b
  | .reset | .clrErr | .crcClear | .crcFinish | .fbEnd | .fbAck | .fbSentinel | .pmClear => 0

/-- The word of a well-formed command (30_encoding.md R93). -/
def encode (i : Instr) : Word := commandWord i.opcode i.operandByte

/-- The command the decoder reads from a row of spec/opcode_table.json whose bits are `w`, bit 0 the least
significant of the 16-bit word (30_encoding.md R90). Every row is one 16-bit word (R96): a shorter bit count leaves
the upper bits 0, a longer one is no command (log entry 9). -/
def decodeTableWord (nbits w : Nat) : Option Instr :=
  if nbits ≤ 16 then (decode (BitVec.ofNat 16 (w % 2 ^ nbits))).toOption else none

end Sys2Proof
end

