-- ==== Sys2Proof/Config.lean ====
section
/-! DEFINITION. The implementation parameters of 00_scope.md section 4. All are fixed for this hardware, so
each is a plain constant; the spec leaves no value open, so there is no free value here. -/

namespace Sys2Proof.Config

/-- PAGE_SIZE, the data bytes of a frame (00_scope.md R7). -/
def pageSize : Nat := 64

/-- FRAME_LEN = 1 + PAGE_SIZE + 2 bytes (00_scope.md R8). -/
def frameLen : Nat := 67

/-- The bytes of a frame its CRC covers, 1 + PAGE_SIZE (00_scope.md R13). -/
def coveredLen : Nat := 65

/-- PAD_BYTE (00_scope.md R9). -/
def padByte : Byte := 0xFF

/-- The byte the sentinel frame is filled with (41_frame.md R155). -/
def sentinelByte : Byte := 0xFF

/-- POLY, the CRC polynomial (00_scope.md R10). -/
def crcPoly : Word := 0x8005

/-- reflect16(POLY), the polynomial of the right-shift form (40_crc.md R125). -/
def crcPolyReflected : Word := 0xA001

/-- CRC_INIT (00_scope.md R10). -/
def crcInit : Word := 0x0000

/-- MARKER = "ASURO" as byte values (00_scope.md R12).
PRESUMED, safe: the codes are the ASCII table's, which the spec itself takes from general knowledge (log entry 11). -/
def marker : List Byte := [0x41, 0x53, 0x55, 0x52, 0x4F]

/-- MAX_PAGES, a caller-level constant the block does not use (00_scope.md R14). -/
def maxPages : Nat := 128

/-- BOOTLOADER_SIZE in bytes, a caller-level constant the block does not use (00_scope.md R14). -/
def bootloaderSize : Nat := 1024

/-- MAX_FILE_SIZE, a caller-level bound the block does not enforce (00_scope.md R14). -/
def maxFileSize : Nat := pageSize * maxPages - bootloaderSize

end Sys2Proof.Config
end

