-- ==== Sys2Proof/Machine/State.lean ====
section
/-! DEFINITION. The state of the block as plain data: every register of 10_state.md, the frame buffer of
20_memory.md, and the host interface of 30_encoding.md; the reasons a step can stop; the state after reset. -/

namespace Sys2Proof.Machine

/-- ConnectState, the six states of the marker matcher (10_state.md R39). The spec asks for an enumerated type,
and the 3-bit values 6 and 7 that no command writes do not exist in one (93_implementation_defined.md U4, log entry 6). -/
inductive ConnectState where
  | idle
  | sawA
  | sawAS
  | sawASU
  | sawASUR
  | matched
deriving DecidableEq, Repr

/-- FRAME_KIND: which frame is held, 0 a data frame, 1 the sentinel frame (10_state.md R37). -/
inductive FrameKind where
  | data
  | sentinel
deriving DecidableEq, Repr

/-- The eight errors a command can be rejected with (60_exceptions.md R231). Their codes are `ErrorName.code`. -/
inductive ErrorName where
  | illegalOpcode
  | nonzeroOperand
  | framePending
  | streamExhausted
  | noFrame
  | badIndex
  | badReg
  | pageOpen
deriving DecidableEq, Repr

/-- The response to one command: a 4-bit code and a 16-bit value (30_encoding.md R97). -/
structure Response where
  code : BitVec 4
  value : Word
deriving DecidableEq, Repr

/-- The frame buffer's contents: the bytes written so far, by index (20_memory.md R60). An index that is not listed
holds a byte nothing has written, which has no value (R62, log entry 4). `Memory.wf` is the canonical form. -/
abbrev Memory := List Host.Cell

/-- Everything the block holds, and the two sides of its host interface. -/
structure State where
  /-- CRC_REG, the augmented working register (10_state.md R32). -/
  crcReg : Word
  /-- CRC_OUT, the last finished CRC (10_state.md R33). -/
  crcOut : Word
  /-- PAGE, the page number the next data frame carries (10_state.md R34). -/
  page : Byte
  /-- FILL, the data bytes the current page has taken, 7 bits (10_state.md R35). -/
  fill : BitVec 7
  /-- FRAME_VALID: a complete frame is held (10_state.md R36). -/
  frameValid : Bool
  /-- FRAME_KIND of the held frame (10_state.md R37). -/
  frameKind : FrameKind
  /-- EXHAUSTED: the stream has ended (10_state.md R38). -/
  exhausted : Bool
  /-- PM_STATE of the marker matcher (10_state.md R39). -/
  pmState : ConnectState
  /-- ERR: some command was rejected since the last RESET or CLR_ERR (10_state.md R40). -/
  err : Bool
  /-- ERR_CODE, the code of the first such reject (10_state.md R41). -/
  errCode : BitVec 4
  /-- FB_BUF, indices 0 to 66 (20_memory.md R60). -/
  fbBuf : Memory
  /-- The model's own field: the command words the host has issued and the block has not taken, in issue order
  (20_memory.md R70). DESIGN CHOICE, safe (log entry 1). -/
  commands : List Word
  /-- The model's own field: the responses given so far, newest first (30_encoding.md R97).
  DESIGN CHOICE, safe (log entry 2). -/
  responses : List Response
deriving DecidableEq, Repr

/-- Why the model stops. Neither fault is the hardware's: no command stops the block (60_exceptions.md R230), and both
need a state that 10_state.md R43 says is never reached (93_implementation_defined.md U6). -/
inductive Fault where
  /-- Raised by FB_DATA when its data byte would go to an index above 66, which does not exist (20_memory.md R66,
  R68): FILL is 66 or more with no frame held. Safe (log entry 7). -/
  | noSuchFrameByte (index : Nat)
  /-- Raised by FB_READ and by frame completion when they read a frame-buffer byte that nothing has written, which
  has no value (20_memory.md R62). Safe (log entry 4). -/
  | unwrittenFrameByte (index : Nat)
deriving DecidableEq, Repr

/-- Why a command has no meaning. -/
inductive Refusal where
  /-- Raised by the arm of a command that has no meaning yet; no arm does. Safe. -/
  | notModelled (mnemonic : String)
deriving DecidableEq, Repr

/-- The outcome of a command. -/
abbrev Result := Host.Outcome State Fault Refusal

/-- The block after power-on: every register at the value its rule gives (10_state.md R32 to R41,
70_reset_and_hazards.md R260); no frame-buffer byte written (log entry 4); no command issued, no response given. -/
def State.reset : State where
  crcReg := 0x0000
  crcOut := 0x0000
  page := 0x00
  fill := 0
  frameValid := false
  frameKind := .data
  exhausted := false
  pmState := .idle
  err := false
  errCode := 0
  fbBuf := []
  commands := []
  responses := []

end Sys2Proof.Machine
end

