-- ==== Sys2Proof/Machine/Ops.lean ====
section
/-! DEFINITION. The named operations over the frame buffer, the host interface and the error record: every read and
write of FB_BUF, taking a command, giving a response, the reject rule (this block's only exception, 60_exceptions.md
R232) and the clearing of the error record beside it (R211, R238). -/

namespace Sys2Proof.Machine

/-! ## The frame buffer -/

/-- The canonical form of the frame buffer: indices strictly rising, and none above 66 (20_memory.md R60). An unlisted
byte has no value, so no listed byte can equal it. -/
abbrev Memory.wf (m : Memory) : Prop :=
  m.Pairwise (fun a b => a.1 < b.1) ∧ ∀ c ∈ m, c.1 < Config.frameLen

/-- The byte at an index, or none if nothing has written it (20_memory.md R62). -/
def Memory.byteAt : Memory → Nat → Option Byte
  | [], _ => none
  | c :: m, a => if a = c.1 then some c.2 else Memory.byteAt m a

/-- `FB_BUF[a] <- b`, keeping the canonical form (00_scope.md R20). -/
def Memory.store : Memory → Nat → Byte → Memory
  | [], a, b => [(a, b)]
  | c :: m, a, b =>
    if a < c.1 then (a, b) :: c :: m
    else if a = c.1 then (a, b) :: m
    else c :: Memory.store m a b

/-- Consecutive stores from index `a` on. -/
def Memory.storeList : Memory → Nat → List Byte → Memory
  | m, _, [] => m
  | m, a, b :: bs => Memory.storeList (m.store a b) (a + 1) bs

/-- Read `FB_BUF[i]`: an index above 66 does not exist (20_memory.md R66), an unwritten byte has no value (R62). -/
def readFrameByte (m : Memory) (i : Nat) : Except Fault Byte :=
  if i < Config.frameLen then
    match m.byteAt i with
    | some b => .ok b
    | none => .error (.unwrittenFrameByte i)
  else .error (.noSuchFrameByte i)

/-- Read `n` consecutive bytes from index `i` on. -/
def readFrameBytes (m : Memory) : Nat → Nat → Except Fault (List Byte)
  | _, 0 => .ok []
  | i, n + 1 =>
    match readFrameByte m i with
    | .error f => .error f
    | .ok b =>
      match readFrameBytes m (i + 1) n with
      | .error f => .error f
      | .ok bs => .ok (b :: bs)

/-- Write `FB_BUF[i] <- b` at a computed index: an index above 66 does not exist (20_memory.md R68). -/
def writeFrameByte (m : Memory) (i : Nat) (b : Byte) : Except Fault Memory :=
  if i < Config.frameLen then .ok (m.store i b) else .error (.noSuchFrameByte i)

/-! ## The host interface -/

/-- Take the next command word the host has issued, if there is one (20_memory.md R70). -/
def fetchCommand (s : State) : Option (Word × State) :=
  match s.commands with
  | [] => none
  | w :: rest => some (w, { s with commands := rest })

/-- `respond(v)`: end a command with code 0 and value `v` (00_scope.md R20, 30_encoding.md R97). -/
def respond (v : Word) (s : State) : State :=
  { s with responses := ⟨0, v⟩ :: s.responses }

/-- The 20-bit packed response, code in bits 19:16 (30_encoding.md R97). -/
def Response.pack (r : Response) : BitVec 20 := r.code ++ r.value

/-! ## Rejecting a command, and clearing the error record -/

/-- The error codes (60_exceptions.md R231). -/
def ErrorName.code : ErrorName → BitVec 4
  | .illegalOpcode => 1
  | .nonzeroOperand => 2
  | .framePending => 3
  | .streamExhausted => 4
  | .noFrame => 5
  | .badIndex => 6
  | .badReg => 7
  | .pageOpen => 8

/-- The error record keeps the first error (60_exceptions.md R232, R233). -/
def recordError (e : ErrorName) (s : State) : State :=
  if s.err then s else { s with err := true, errCode := e.code }

/-- The reject rule, `raise Error(c)` (60_exceptions.md R232): only the error record changes, and the response carries
the code and value 0. Every raise comes before the command's first write, so `s` is the state before the command. -/
def reject (e : ErrorName) (s : State) : State :=
  { recordError e s with responses := ⟨e.code, 0x0000⟩ :: s.responses }

/-- Clear the error record (43_control.md R211); the only way to re-arm it short of RESET (60_exceptions.md R238). -/
def clearErrorRecord (s : State) : State :=
  { s with err := false, errCode := 0 }

end Sys2Proof.Machine
end

