-- ==== Sys2Proof/Machine/Operands.lean ====
section
/-! DEFINITION. The operand forms of 30_encoding.md R91 and the bit operations of 00_scope.md section 5: zero
extension, reflection, the byte fields of a CRC, the legal ranges of an index and a register number. -/

namespace Sys2Proof.Machine

/-- `zext_16(v)` (00_scope.md R18, 30_encoding.md R92). -/
def zext16 {w : Nat} (v : BitVec w) : Word := v.setWidth 16

/-- `reflect8(b)`: bit i is bit 7 − i of `b` (00_scope.md R19). -/
def reflect8 (b : Byte) : Byte := b.reverse

/-- `reflect16(v)`: bit i is bit 15 − i of `v` (00_scope.md R19). -/
def reflect16 (v : Word) : Word := v.reverse

/-- `v[7:0]`, the byte a frame carries first (20_memory.md R63). -/
def lowByte (v : Word) : Byte := v.extractLsb' 0 8

/-- `v[15:8]`, the byte a frame carries second (20_memory.md R63). -/
def highByte (v : Word) : Byte := v.extractLsb' 8 8

/-- Operand form `i`: 0 to 66 is legal (30_encoding.md R91, 20_memory.md R66). -/
def legalIndex (i : Nat) : Bool := decide (i ≤ 66)

/-- The frame-buffer index of data byte FILL of the page, `1 + FILL` (20_memory.md R61, 41_frame.md R151). -/
def dataIndex (s : State) : Nat := 1 + s.fill.toNat

/-- The error name a decoding error is rejected with (30_encoding.md R94). -/
def decodeErrorName : DecodeError → ErrorName
  | .illegalOpcode => .illegalOpcode
  | .nonzeroOperand => .nonzeroOperand

end Sys2Proof.Machine
end

