-- ==== Sys2Proof/Machine/Flags.lean ====
section
/-! DEFINITION. The flag-like bits and the views over the registers: the numbers of ConnectState and FRAME_KIND, the
MATCHED view, the STATUS word (10_state.md R42) and the registers READ_REG can name (R44). -/

namespace Sys2Proof.Machine

/-- The 3-bit number of a ConnectState (10_state.md R39). -/
def ConnectState.number : ConnectState → BitVec 3
  | .idle => 0
  | .sawA => 1
  | .sawAS => 2
  | .sawASU => 3
  | .sawASUR => 4
  | .matched => 5

/-- The bit of a FRAME_KIND (10_state.md R37). -/
def FrameKind.bit : FrameKind → BitVec 1
  | .data => 0
  | .sentinel => 1

/-- MATCHED, STATUS bit 3: PM_STATE is 5 (10_state.md R42). -/
def matchedFlag (s : State) : Bool := s.pmState.number == 5

/-- The STATUS view, bit 15 first (10_state.md R42). -/
def statusWord (s : State) : Word :=
  0#1 ++ s.fill ++ BitVec.ofBool s.err ++ BitVec.ofBool s.exhausted ++ s.frameKind.bit
    ++ BitVec.ofBool s.frameValid ++ BitVec.ofBool (matchedFlag s) ++ s.pmState.number

/-- Register number `r` as READ_REG reads it, or none for the numbers 5 to 255 (10_state.md R44). -/
def readRegister (s : State) : Nat → Option Word
  | 0 => some (statusWord s)
  | 1 => some s.crcReg
  | 2 => some s.crcOut
  | 3 => some (zext16 s.page)
  | 4 => some (zext16 s.errCode)
  | _ => none

end Sys2Proof.Machine
end

