-- ==== Sys2Proof/Machine/Control.lean ====
section
/-! DEFINITION. The control commands (43_control.md). -/

namespace Sys2Proof.Machine

/-- RESET: every register takes the value power-on gives it, FB_BUF is not cleared (43_control.md R210,
70_reset_and_hazards.md R260). The commands still to come and the responses already given are the host's and stay. -/
def execReset (s : State) : Result :=
  .next (respond 0x0000 { State.reset with
    fbBuf := s.fbBuf
    commands := s.commands
    responses := s.responses })

/-- CLR_ERR clears the error record (43_control.md R211). -/
def execClrErr (s : State) : Result :=
  .next (respond 0x0000 (clearErrorRecord s))

/-- READ_REG r reads one register by number (43_control.md R212). -/
def execReadReg (r : Nat) (s : State) : Result :=
  match readRegister s r with
  | none => .next (reject .badReg s)
  | some v => .next (respond v s)

end Sys2Proof.Machine
end

