-- ==== Sys2Proof/Machine/Crc.lean ====
section
/-! DEFINITION. The CRC function of 40_crc.md section 1: the augmented step, one byte, the finish, the CRC of a byte
sequence; and the spec's two other renderings of it, the direct right-shift loop (R125) and masking after each byte
(R124), which no command uses. -/

namespace Sys2Proof.Machine

/-- The augmented step: shift left, OR in the new bit, reduce if the bit shifted out was set (40_crc.md R120). -/
def crcStep (reg : Word) (bit : Bool) : Word :=
  let shifted := (reg <<< 1) ||| zext16 (BitVec.ofBool bit)
  if reg.getLsbD 15 then shifted ^^^ Config.crcPoly else shifted

/-- One message byte: the bits of its reflection, from bit 7 down to bit 0 (40_crc.md R121). -/
def crcByte (reg : Word) (b : Byte) : Word :=
  let r := reflect8 b
  [7, 6, 5, 4, 3, 2, 1, 0].foldl (fun acc j => crcStep acc (r.getLsbD j)) reg

/-- Sixteen steps with bit 0, then the reflection; no final xor (40_crc.md R122). -/
def crcFinish (reg : Word) : Word :=
  reflect16 (Nat.iterate (fun t => crcStep t false) 16 reg)

/-- The CRC of a byte sequence, the empty one included (40_crc.md R123). -/
def crc16 (d : List Byte) : Word :=
  crcFinish (d.foldl crcByte Config.crcInit)

/-- One right-shift step of the direct form (40_crc.md R125). -/
def directStep (c : Word) : Word :=
  if c.getLsbD 0 then (c >>> 1) ^^^ Config.crcPolyReflected else c >>> 1

/-- One message byte of the direct form (40_crc.md R125). -/
def directByte (c : Word) (b : Byte) : Word :=
  Nat.iterate directStep 8 (c ^^^ zext16 b)

/-- The direct, non-augmented form of the CRC (40_crc.md R125). -/
def crc16Direct (d : List Byte) : Word :=
  d.foldl directByte 0x0000

/-- The augmented step on an unbounded register, nothing masked: the shift, the new bit, and the reduction decided by
bit 15 before the shift (40_crc.md R124). -/
def unmaskedStep (reg : Nat) (bit : Bool) : Nat :=
  let shifted := (reg <<< 1) ||| bit.toNat
  if reg.testBit 15 then shifted ^^^ Config.crcPoly.toNat else shifted

/-- One message byte with the source's masking to 16 bits after each byte only (40_crc.md R124). -/
def byteMaskedCrc (reg : Nat) (b : Byte) : Nat :=
  [7, 6, 5, 4, 3, 2, 1, 0].foldl (fun acc j => unmaskedStep acc ((reflect8 b).getLsbD j)) reg % 2 ^ 16

end Sys2Proof.Machine
end

