-- ==== Sys2Proof/Machine/CrcUnit.lean ====
section
/-! DEFINITION. The commands of the CRC unit (40_crc.md section 3). -/

namespace Sys2Proof.Machine

/-- CRC_CLEAR starts a new message; CRC_OUT stays (40_crc.md R127). -/
def execCrcClear (s : State) : Result :=
  .next (respond 0x0000 { s with crcReg := Config.crcInit })

/-- CRC_BYTE b feeds one message byte and responds with the new CRC_REG (40_crc.md R128). -/
def execCrcByte (b : Byte) (s : State) : Result :=
  .next (respond (crcByte s.crcReg b) { s with crcReg := crcByte s.crcReg b })

/-- CRC_FINISH writes the finished CRC to CRC_OUT and responds with it; CRC_REG stays (40_crc.md R129). -/
def execCrcFinish (s : State) : Result :=
  .next (respond (crcFinish s.crcReg) { s with crcOut := crcFinish s.crcReg })

end Sys2Proof.Machine
end

