-- ==== Sys2Proof/Machine/FrameBuilder.lean ====
section
/-! DEFINITION. The frame builder: frame completion (41_frame.md R150) and its five commands (section 2). Checks come
before the first write, in the order the rules give (60_exceptions.md R234). -/

namespace Sys2Proof.Machine

/-- The frame buffer with the page number in byte 0 and the rest of the page padded, before the CRC goes in
(41_frame.md R150). -/
def paddedPage (s : State) : Memory :=
  (s.fbBuf.store 0 s.page).storeList (dataIndex s)
    (List.replicate (Config.pageSize - s.fill.toNat) Config.padByte)

/-- A CRC in bytes 65 and 66, low byte first (20_memory.md R63, 41_frame.md R150). -/
def storeCrc (m : Memory) (c : Word) : Memory :=
  (m.store 65 (lowByte c)).store 66 (highByte c)

/-- `complete_data_frame()`: page number, padding, the CRC of the leading 65 bytes, then PAGE, FRAME_VALID and
FRAME_KIND; FILL stays as the frame's bytes_read (41_frame.md R150). -/
def completeDataFrame (s : State) : Except Fault State :=
  match readFrameBytes (paddedPage s) 0 Config.coveredLen with
  | .error f => .error f
  | .ok covered =>
    .ok { s with
      fbBuf := storeCrc (paddedPage s) (crc16 covered)
      page := s.page + 1
      frameValid := true
      frameKind := .data }

/-- Complete the frame and respond with its bytes_read (41_frame.md R151, R152). -/
def completeAndRespond (s : State) : Result :=
  match completeDataFrame s with
  | .error f => .fault f
  | .ok s' => .next (respond (zext16 s'.fill) s')

/-- FB_DATA b pushes one byte into the page; the 64th completes the frame (41_frame.md R151). -/
def execFbData (b : Byte) (s : State) : Result :=
  if s.frameValid then .next (reject .framePending s)
  else if s.exhausted then .next (reject .streamExhausted s)
  else
    match writeFrameByte s.fbBuf (dataIndex s) b with
    | .error f => .fault f
    | .ok m =>
      let s' := { s with fbBuf := m, fill := s.fill + 1 }
      if s'.fill = 64 then completeAndRespond s'
      else .next (respond (zext16 s'.fill) s')

/-- FB_END ends the stream: an open page completes as a padded frame, an empty one sets EXHAUSTED (41_frame.md R152). -/
def execFbEnd (s : State) : Result :=
  if s.frameValid then .next (reject .framePending s)
  else if s.fill = 0 then .next (respond 0x0000 { s with exhausted := true })
  else completeAndRespond s

/-- FB_READ i reads one byte of the held frame; the index is checked first (41_frame.md R153). -/
def execFbRead (i : Nat) (s : State) : Result :=
  if !legalIndex i then .next (reject .badIndex s)
  else if !s.frameValid then .next (reject .noFrame s)
  else
    match readFrameByte s.fbBuf i with
    | .error f => .fault f
    | .ok b => .next (respond (zext16 b) s)

/-- FB_ACK releases the held frame; the buffer is not cleared (41_frame.md R154). -/
def execFbAck (s : State) : Result :=
  if !s.frameValid then .next (reject .noFrame s)
  else .next (respond 0x0000 { s with frameValid := false, frameKind := .data, fill := 0 })

/-- FB_SENTINEL loads the all-0xFF frame; PAGE and EXHAUSTED stay (41_frame.md R155, 90_conflicts.md C2). -/
def execFbSentinel (s : State) : Result :=
  if s.frameValid then .next (reject .framePending s)
  else if s.fill ≠ 0 then .next (reject .pageOpen s)
  else
    .next (respond 0x0000 { s with
      fbBuf := s.fbBuf.storeList 0 (List.replicate Config.frameLen Config.sentinelByte)
      frameValid := true
      frameKind := .sentinel })

end Sys2Proof.Machine
end

