-- ==== Sys2Proof/Machine/Matcher.lean ====
section
/-! DEFINITION. The marker matcher: the transition function of 42_match.md R190 and its two commands (section 2). -/

namespace Sys2Proof.Machine

/-- The transition function δ: 'A' from any state gives SawA, the next marker byte advances, any other byte gives Idle
(42_match.md R190). Matched is not absorbing. -/
def delta (p : ConnectState) (b : Byte) : ConnectState :=
  if b = 0x41 then .sawA
  else if p = .sawA ∧ b = 0x53 then .sawAS
  else if p = .sawAS ∧ b = 0x55 then .sawASU
  else if p = .sawASU ∧ b = 0x52 then .sawASUR
  else if p = .sawASUR ∧ b = 0x4F then .matched
  else .idle

/-- PM_FEED b feeds one received byte and responds with the new state (42_match.md R191). -/
def execPmFeed (b : Byte) (s : State) : Result :=
  .next (respond (zext16 (delta s.pmState b).number) { s with pmState := delta s.pmState b })

/-- PM_CLEAR returns the matcher to Idle (42_match.md R192). -/
def execPmClear (s : State) : Result :=
  .next (respond 0x0000 { s with pmState := .idle })

end Sys2Proof.Machine
end

