-- ==== Sys2Proof/Machine/Dispatch.lean ====
section
/-! DEFINITION. One arm per command, each a direct call of its meaning. -/

namespace Sys2Proof.Machine

/-- What each command does (30_encoding.md R93). -/
def exec (i : Instr) (s : State) : Host.Outcome State Fault Refusal :=
  match i with
  | .reset => Sys2Proof.Machine.execReset s
  | .clrErr => Sys2Proof.Machine.execClrErr s
  | .readReg r => Sys2Proof.Machine.execReadReg r s
  | .crcClear => Sys2Proof.Machine.execCrcClear s
  | .crcByte b => Sys2Proof.Machine.execCrcByte b s
  | .crcFinish => Sys2Proof.Machine.execCrcFinish s
  | .fbData b => Sys2Proof.Machine.execFbData b s
  | .fbEnd => Sys2Proof.Machine.execFbEnd s
  | .fbRead k => Sys2Proof.Machine.execFbRead k s
  | .fbAck => Sys2Proof.Machine.execFbAck s
  | .fbSentinel => Sys2Proof.Machine.execFbSentinel s
  | .pmFeed b => Sys2Proof.Machine.execPmFeed b s
  | .pmClear => Sys2Proof.Machine.execPmClear s

end Sys2Proof.Machine
end

