-- ==== Sys2Proof/Machine/Step.lean ====
section
/-! DEFINITION. One step: the block takes the next command word the host has issued and performs it to its response
(00_scope.md R21, 20_memory.md R70). -/

namespace Sys2Proof.Machine

/-- Take one command word, decode it and run it; a word that does not decode is rejected with the decoding error's code
(30_encoding.md R94). With no word issued the block is idle and holds its state (60_exceptions.md R245, log entry 1). -/
def step (s : State) : Host.Outcome State Fault Refusal :=
  match fetchCommand s with
  | none => .next s
  | some (w, s') =>
    match decode w with
    | .ok i => exec i s'
    | .error e => .next (reject (decodeErrorName e) s')

/-- The state with the given bits issued as the host's next command word, ahead of any other (log entry 3). Every command
is one 16-bit word (30_encoding.md R96), so bits above `nbits` are 0 and bits above 16 are no part of it. -/
def State.withFetchWord (s : State) (nbits w : Nat) : State :=
  { s with commands := BitVec.ofNat 16 (w % 2 ^ nbits) :: s.commands }

end Sys2Proof.Machine
end

