-- ==== Sys2Proof/Machine/Assembler.lean ====
section
/-! DEFINITION. The host's written form of commands: the pseudo-instructions of 30_encoding.md R100, which the block sees
only as their expansions, and the assembler syntax of R99. No step of the block uses this file. -/

namespace Sys2Proof.Machine

/-! ## Pseudo-instructions (30_encoding.md R100) -/

/-- `CRC_BYTES s`. -/
def crcBytes (d : List Byte) : List Instr := d.map .crcByte

/-- `CRC16 s`. -/
def crc16Commands (d : List Byte) : List Instr := .crcClear :: crcBytes d ++ [.crcFinish]

/-- `FB_BYTES s`. -/
def fbBytes (d : List Byte) : List Instr := d.map .fbData

/-- `PM_FEEDS s`. -/
def pmFeeds (d : List Byte) : List Instr := d.map .pmFeed

/-- `FB_READ_ALL`: FB_READ 0 to FB_READ 66. -/
def fbReadAll : List Instr := (List.range 67).map .fbRead

/-! ## Assembler syntax (30_encoding.md R99) -/

/-- What the assembler refuses a line for (30_encoding.md R99). -/
inductive AsmError where
  /-- The first word of the line is no upper-case name of R93 or R100. -/
  | unknownMnemonic
  /-- A command of form b, i or r, or a pseudo-instruction over a byte list, with no operand. -/
  | missingOperand
  /-- Something other than a comment stands after the command. -/
  | extraOperand
  /-- A number above 255. -/
  | valueAbove255
  /-- The operand is no number, character, register name or byte list. -/
  | badOperand
  /-- A register name on a command other than READ_REG. -/
  | regnameOutsideReadReg
deriving DecidableEq, Repr

/-- Blank space between the parts of a line. DESIGN CHOICE, safe: space and tab (log entry 13). -/
def isBlank (c : Char) : Bool := c == ' ' || c == '\t'

/-- A character of a mnemonic, a number or a register name: neither blank nor the start of a comment. -/
def isWordChar (c : Char) : Bool := !(isBlank c || c == ';')

/-- Nothing but blanks and a comment is left. -/
def lineEnds (cs : List Char) : Bool :=
  match cs.dropWhile isBlank with
  | [] => true
  | c :: _ => c == ';'

/-- The value of a decimal digit. -/
def decimalDigit (c : Char) : Option Nat :=
  if '0'.toNat ≤ c.toNat ∧ c.toNat ≤ '9'.toNat then some (c.toNat - '0'.toNat) else none

/-- The value of a hex digit. DESIGN CHOICE, safe: either letter case (log entry 13). -/
def hexDigit (c : Char) : Option Nat :=
  if 'a'.toNat ≤ c.toNat ∧ c.toNat ≤ 'f'.toNat then some (10 + c.toNat - 'a'.toNat)
  else if 'A'.toNat ≤ c.toNat ∧ c.toNat ≤ 'F'.toNat then some (10 + c.toNat - 'A'.toNat)
  else decimalDigit c

/-- The number a list of digits in base `base` stands for, after the value `acc` read so far. -/
def digitsValue (base : Nat) (digit : Char → Option Nat) : Nat → List Char → Option Nat
  | acc, [] => some acc
  | acc, c :: cs =>
    match digit c with
    | some d => digitsValue base digit (base * acc + d) cs
    | none => none

/-- An assembler value: 0 to 255. -/
def byteValue : Option Nat → Except AsmError Byte
  | none => .error .badOperand
  | some n => if n ≤ 255 then .ok (BitVec.ofNat 8 n) else .error .valueAbove255

/-- `number`: decimal digits, or 0x and one or two hex digits (30_encoding.md R99). -/
def parseNumber : List Char → Except AsmError Byte
  | [] => .error .badOperand
  | '0' :: 'x' :: ds =>
    if ds.length = 1 ∨ ds.length = 2 then byteValue (digitsValue 16 hexDigit 0 ds) else .error .badOperand
  | c :: cs => byteValue (digitsValue 10 decimalDigit 0 (c :: cs))

/-- `regname` (30_encoding.md R99, 10_state.md R44). -/
def registerNumber : String → Option Byte
  | "STATUS" => some 0
  | "CRC_REG" => some 1
  | "CRC_OUT" => some 2
  | "PAGE" => some 3
  | "ERR_CODE" => some 4
  | _ => none

/-- A printable ASCII character. -/
def isPrintable (c : Char) : Bool := decide (0x20 ≤ c.toNat ∧ c.toNat ≤ 0x7E)

/-- `operand`: a character between single quotes, a register name on READ_REG, or a number (30_encoding.md R99). -/
def parseOperand (onReadReg : Bool) (cs : List Char) : Except AsmError Byte :=
  match cs with
  | ['\'', c, '\''] => if isPrintable c then .ok (BitVec.ofNat 8 c.toNat) else .error .badOperand
  | _ =>
    match registerNumber (String.ofList cs) with
    | some r => if onReadReg then .ok r else .error .regnameOutsideReadReg
    | none => parseNumber cs

/-- The operand's characters and what follows them; a quoted character may be a blank or a semicolon. -/
def operandToken : List Char → List Char × List Char
  | '\'' :: c :: '\'' :: rest => (['\'', c, '\''], rest)
  | cs => (cs.takeWhile isWordChar, cs.dropWhile isWordChar)

/-- The pieces of a comma-separated list. -/
def splitCommas : List Char → List (List Char)
  | [] => [[]]
  | c :: cs =>
    match splitCommas cs with
    | [] => []
    | t :: ts => if c = ',' then [] :: t :: ts else (c :: t) :: ts

/-- A piece without the blanks around it. -/
def trimBlanks (cs : List Char) : List Char :=
  ((cs.dropWhile isBlank).reverse.dropWhile isBlank).reverse

/-- A list of numbers. -/
def parseNumbers : List (List Char) → Except AsmError (List Byte)
  | [] => .ok []
  | t :: ts =>
    match parseNumber (trimBlanks t), parseNumbers ts with
    | .ok b, .ok bs => .ok (b :: bs)
    | .error e, _ => .error e
    | .ok _, .error e => .error e

/-- The byte list of a pseudo-instruction: a double-quoted ASCII string or comma-separated numbers
(30_encoding.md R100). -/
def parseByteList (cs : List Char) : Except AsmError (List Byte) :=
  match cs with
  | '"' :: rest =>
    let body := rest.takeWhile (· != '"')
    match rest.dropWhile (· != '"') with
    | [] => .error .badOperand
    | _ :: after =>
      if !lineEnds after then .error .extraOperand
      else if body.all (fun c => decide (c.toNat < 128)) then .ok (body.map fun c => BitVec.ofNat 8 c.toNat)
      else .error .badOperand
  | _ => parseNumbers (splitCommas (cs.takeWhile (· != ';')))

/-- The commands and the pseudo-instruction that take no operand. -/
def bareMnemonic : String → Option (List Instr)
  | "RESET" => some [.reset]
  | "CLR_ERR" => some [.clrErr]
  | "CRC_CLEAR" => some [.crcClear]
  | "CRC_FINISH" => some [.crcFinish]
  | "FB_END" => some [.fbEnd]
  | "FB_ACK" => some [.fbAck]
  | "FB_SENTINEL" => some [.fbSentinel]
  | "PM_CLEAR" => some [.pmClear]
  | "FB_READ_ALL" => some fbReadAll
  | _ => none

/-- The commands that take one operand, of form b, i or r. -/
def operandMnemonic : String → Option (Byte → Instr)
  | "READ_REG" => some fun x => .readReg x.toNat
  | "CRC_BYTE" => some .crcByte
  | "FB_DATA" => some .fbData
  | "FB_READ" => some fun x => .fbRead x.toNat
  | "PM_FEED" => some .pmFeed
  | _ => none

/-- The pseudo-instructions over a byte list. -/
def listMnemonic : String → Option (List Byte → List Instr)
  | "CRC_BYTES" => some crcBytes
  | "CRC16" => some crc16Commands
  | "FB_BYTES" => some fbBytes
  | "PM_FEEDS" => some pmFeeds
  | _ => none

/-- The commands a mnemonic and what follows it stand for (30_encoding.md R99, R100). -/
def parseCommand (m : String) (rest : List Char) : Except AsmError (List Instr) :=
  match bareMnemonic m, operandMnemonic m, listMnemonic m with
  | some is, _, _ => if lineEnds rest then .ok is else .error .extraOperand
  | none, some f, _ =>
    if lineEnds rest then .error .missingOperand
    else
      match parseOperand (m == "READ_REG") (operandToken rest).1 with
      | .error e => .error e
      | .ok x => if lineEnds (operandToken rest).2 then .ok [f x] else .error .extraOperand
  | none, none, some f =>
    if lineEnds rest then .error .missingOperand
    else
      match parseByteList rest with
      | .error e => .error e
      | .ok d => .ok (f d)
  | none, none, none => .error .unknownMnemonic

/-- The commands of one line; none for an empty line or a comment (30_encoding.md R99, R100). -/
def parseLine (line : List Char) : Except AsmError (List Instr) :=
  let cs := line.dropWhile isBlank
  if lineEnds cs then .ok []
  else parseCommand (String.ofList (cs.takeWhile isWordChar)) ((cs.dropWhile isWordChar).dropWhile isBlank)

/-- Assemble one line to its command words (30_encoding.md R99). -/
def assembleLine (line : String) : Except AsmError (List Word) :=
  match parseLine line.toList with
  | .error e => .error e
  | .ok is => .ok (is.map encode)

end Sys2Proof.Machine
end

