-- ==== Sys2Proof/Safety.lean ====
section
/-! DEFINITION. The terms the claims are stated in: the legal states of 10_state.md R43, the soundness of a held frame,
runs of commands, and what a reader of the spec expects of a reject, an acceptance, a frame and a marker match. -/

namespace Sys2Proof.Safety

open Sys2Proof.Machine

/-! ## Legal states -/

/-- The relations between registers that every reachable state satisfies (10_state.md R43), and the error codes that are
ever produced (60_exceptions.md R231). -/
abbrev RegistersLegal (s : State) : Prop :=
  s.fill.toNat ≤ 64
  ∧ (s.fill.toNat = 64 → s.frameValid = true ∧ s.frameKind = .data)
  ∧ (s.frameKind = .sentinel → s.frameValid = true ∧ s.fill.toNat = 0)
  ∧ (s.exhausted = true → s.fill.toNat = 0)
  ∧ (s.frameValid = true ∧ s.frameKind = .data → 1 ≤ s.fill.toNat ∧ s.exhausted = false)
  ∧ s.pmState.number.toNat ≤ 5
  ∧ (s.err = false ↔ s.errCode = 0)
  ∧ s.errCode.toNat ≤ 8

/-- While a frame is held, every byte of FB_BUF has been written (10_state.md R43). -/
abbrev FrameWritten (s : State) : Prop :=
  s.frameValid = true → ∀ k < 67, (s.fbBuf.byteAt k).isSome = true

/-- While a page is open, its FILL data bytes have been written (10_state.md R35, 41_frame.md R151).
DEDUCED: R43 does not list this, and needs it to hold along a run (log entry 12). -/
abbrev PageWritten (s : State) : Prop :=
  s.frameValid = false → ∀ k < s.fill.toNat, (s.fbBuf.byteAt (1 + k)).isSome = true

/-- A state a run from reset can be in. -/
abbrev Legal (s : State) : Prop :=
  RegistersLegal s ∧ s.fbBuf.wf ∧ FrameWritten s ∧ PageWritten s

/-- A held data frame carries the page number PAGE had before it completed, 0xFF after its FILL data bytes, and the CRC
of its first 65 bytes low byte first (41_frame.md R150, R158, R159). -/
def DataFrameSound (s : State) : Prop :=
  s.frameValid = true → s.frameKind = .data →
    s.fbBuf.byteAt 0 = some (s.page - 1)
    ∧ (∀ k, s.fill.toNat ≤ k → k < 64 → s.fbBuf.byteAt (1 + k) = some 0xFF)
    ∧ ∃ covered, readFrameBytes s.fbBuf 0 65 = .ok covered
        ∧ s.fbBuf.byteAt 65 = some ((crc16 covered).extractLsb' 0 8)
        ∧ s.fbBuf.byteAt 66 = some ((crc16 covered).extractLsb' 8 8)

/-- A held sentinel frame is 67 bytes 0xFF (41_frame.md R155). -/
def SentinelSound (s : State) : Prop :=
  s.frameValid = true → s.frameKind = .sentinel → ∀ k < 67, s.fbBuf.byteAt k = some 0xFF

/-- The held frame, if there is one, is what the frame builder makes. -/
def FrameSound (s : State) : Prop := DataFrameSound s ∧ SentinelSound s

/-- Between `s` and `t` a data frame completed (41_frame.md R150). -/
abbrev Completes (s t : State) : Prop :=
  s.frameValid = false ∧ t.frameValid = true ∧ t.frameKind = .data

/-! ## Runs -/

/-- Run commands one after another, stopping where one does not answer a next state (20_memory.md R70). -/
def execAll : List Instr → State → Result
  | [], s => .next s
  | i :: is, s =>
    match exec i s with
    | .next t => execAll is t
    | .fault f => .fault f
    | .refused r => .refused r

/-- How many data frames complete along a run (41_frame.md R157). -/
def dataFrames : List Instr → State → Nat
  | [], _ => 0
  | i :: is, s =>
    match exec i s with
    | .next t => (if Completes s t then 1 else 0) + dataFrames is t
    | .fault _ => 0
    | .refused _ => 0

/-- The state with the host's commands put before it. -/
def withCommands (s : State) (ws : List Word) : State := { s with commands := ws }

/-- A function of the next state; a stop stays. -/
def mapNext (f : State → State) : Result → Result
  | .next t => .next (f t)
  | .fault r => .fault r
  | .refused r => .refused r

/-! ## What the spec expects -/

/-- The state after a reject with code `c`: the response, and the first error recorded (60_exceptions.md R232, R233). -/
def afterReject (c : BitVec 4) (s : State) : State :=
  { s with
    err := true
    errCode := if s.err then s.errCode else c
    responses := ⟨c, 0⟩ :: s.responses }

/-- The code of the response to the word `w`, 0 where it is accepted: the table of 60_exceptions.md R235. -/
def acceptanceCode (w : Word) (s : State) : BitVec 4 :=
  let op := w.toNat / 256
  let x := w.toNat % 256
  if op = 0x01 ∨ op = 0x02 ∨ op = 0x10 ∨ op = 0x12 ∨ op = 0x31 then (if x ≠ 0 then 2 else 0)
  else if op = 0x03 then (if x > 4 then 7 else 0)
  else if op = 0x11 ∨ op = 0x30 then 0
  else if op = 0x20 then (if s.frameValid then 3 else if s.exhausted then 4 else 0)
  else if op = 0x21 then (if x ≠ 0 then 2 else if s.frameValid then 3 else 0)
  else if op = 0x22 then (if x > 66 then 6 else if s.frameValid then 0 else 5)
  else if op = 0x23 then (if x ≠ 0 then 2 else if s.frameValid then 0 else 5)
  else if op = 0x24 then (if x ≠ 0 then 2 else if s.frameValid then 3 else if s.fill ≠ 0 then 8 else 0)
  else 1

/-- The opcodes of the commands without operand (30_encoding.md R93). -/
def bareOpcodes : List Nat := [0x01, 0x02, 0x10, 0x12, 0x21, 0x23, 0x24, 0x31]

/-- The opcodes of the commands with an operand (30_encoding.md R93). -/
def operandOpcodes : List Nat := [0x03, 0x11, 0x20, 0x22, 0x30]

/-- The reserved opcodes, by the ranges of 30_encoding.md R95. -/
def reservedOpcode (op : Nat) : Bool :=
  op == 0x00 || (0x04 ≤ op && op ≤ 0x0F) || (0x13 ≤ op && op ≤ 0x1F) || (0x25 ≤ op && op ≤ 0x2F)
    || (0x32 ≤ op && op ≤ 0xFF)

/-- The command belongs to the CRC unit (30_encoding.md R93: opcode high nibble 1). -/
def isCrcUnit : Instr → Bool
  | .crcClear | .crcByte _ | .crcFinish => true
  | .reset | .clrErr | .readReg _ | .fbData _ | .fbEnd | .fbRead _ | .fbAck | .fbSentinel | .pmFeed _
  | .pmClear => false

/-- The byte a command feeds the matcher, if it does (42_match.md R191). -/
def fedByte : Instr → Option Byte
  | .pmFeed b => some b
  | .reset | .clrErr | .readReg _ | .crcClear | .crcByte _ | .crcFinish | .fbData _ | .fbEnd | .fbRead _
  | .fbAck | .fbSentinel | .pmClear => none

/-- The 65 bytes of a data frame that its CRC covers: page number, data, padding (41_frame.md R159). -/
def coveredBytes (page : Byte) (data : List Byte) : List Byte :=
  page :: (data ++ List.replicate (64 - data.length) 0xFF)

/-- The 67 bytes of a data frame in wire order (20_memory.md R61, R63). -/
def wireFrame (page : Byte) (data : List Byte) : List Byte :=
  coveredBytes page data
    ++ [(crc16 (coveredBytes page data)).extractLsb' 0 8, (crc16 (coveredBytes page data)).extractLsb' 8 8]

/-! ## Assembler lines (30_encoding.md R99) -/

/-- The commands without operand, with their opcodes (30_encoding.md R93). -/
def bareRows : List (String × Byte) :=
  [("RESET", 0x01), ("CLR_ERR", 0x02), ("CRC_CLEAR", 0x10), ("CRC_FINISH", 0x12), ("FB_END", 0x21), ("FB_ACK", 0x23),
    ("FB_SENTINEL", 0x24), ("PM_CLEAR", 0x31)]

/-- The commands with an operand, with their opcodes (30_encoding.md R93). -/
def operandRows : List (String × Byte) :=
  [("READ_REG", 0x03), ("CRC_BYTE", 0x11), ("FB_DATA", 0x20), ("FB_READ", 0x22), ("PM_FEED", 0x30)]

/-- The decimal digits of a number. -/
def decimalText (n : Nat) : List Char := Nat.toDigits 10 n

/-- A byte as 0x and two hex digits. -/
def hexText (b : Byte) : List Char := ['0', 'x', Nat.digitChar (b.toNat / 16), Nat.digitChar (b.toNat % 16)]

/-- Bytes written as numbers with a separator between. -/
def listText (sep : List Char) (write : Byte → List Char) (d : List Byte) : List Char := sep.intercalate (d.map write)

/-- A mnemonic, one blank and an operand. -/
def commandLine (mnemonic : String) (operand : List Char) : String :=
  String.ofList (mnemonic.toList ++ ' ' :: operand)

/-! ## Views of the state -/

/-- The buffer `m` shows the host what the buffer of `s` shows it: the held frame, or the data bytes taken so far, which
completion will read (10_state.md R47, 20_memory.md R62). -/
def SameView (s : State) (m : Memory) : Prop :=
  m.wf
  ∧ (s.frameValid = true → ∀ k < 67, m.byteAt k = s.fbBuf.byteAt k)
  ∧ (s.frameValid = false → ∀ k < s.fill.toNat, m.byteAt (1 + k) = s.fbBuf.byteAt (1 + k))

/-- The registers of the CRC unit and the matcher, which no frame-builder command writes, and the host's command list,
unchanged (10_state.md R45). -/
abbrev OtherUnitsKept (s t : State) : Prop :=
  t.crcReg = s.crcReg ∧ t.crcOut = s.crcOut ∧ t.pmState = s.pmState ∧ t.commands = s.commands

/-- The registers of the frame builder, unchanged (10_state.md R45). -/
abbrev FrameBuilderKept (s t : State) : Prop :=
  t.page = s.page ∧ t.fill = s.fill ∧ t.frameValid = s.frameValid ∧ t.frameKind = s.frameKind
    ∧ t.exhausted = s.exhausted

/-- The error record, unchanged (10_state.md R45). -/
abbrev ErrorRecordKept (s t : State) : Prop :=
  t.err = s.err ∧ t.errCode = s.errCode

/-- Every byte of FB_BUF reads as before. -/
abbrev BufferKept (s t : State) : Prop :=
  ∀ a, t.fbBuf.byteAt a = s.fbBuf.byteAt a

end Sys2Proof.Safety
end

