-- ==== Sys2Proof/Certificates/Slice0/Obligations.lean ====
section
/-! DEFINITION. The statements for the provers, in the order of the spec's files: encoding, steps, CRC unit, frame builder,
marker matcher, control commands, errors, and the whole machine. Each docstring names the rule a statement formalises. -/

open Sys2Proof Sys2Proof.Machine Sys2Proof.Safety

/-! ## Encoding (30_encoding.md) -/

/-- Decoding the word of a well-formed command gives the command back, with every operand an operand byte can carry
(R90 to R93). -/
def Obligations.DecodeOfEncodeIsTheCommand : Prop :=
  ∀ i : Instr, i.wellFormed = true → decode (encode i) = .ok i

/-- A word that decodes is exactly the word of the command it decodes to, so no word outside the opcode map has a meaning
(R93, R95 last sentence). -/
def Obligations.EncodeOfDecodeIsTheWord : Prop :=
  ∀ (w : Word) (i : Instr), decode w = .ok i → i.wellFormed = true ∧ encode i = w

/-- Decoding runs in the order of R94: the opcode check, the check of an absent operand, then the command of the opcode with
the operand byte. A step rejects the word in the first two cases and runs the command in the third. -/
def Obligations.DecodeChecksOpcodeThenOperand : Prop :=
  ∀ w : Word,
    (decode w = .error .illegalOpcode ↔ w.toNat / 256 ∉ bareOpcodes ++ operandOpcodes)
    ∧ (decode w = .error .nonzeroOperand ↔ w.toNat / 256 ∈ bareOpcodes ∧ w.toNat % 256 ≠ 0)
    ∧ (w.toNat / 256 ∉ bareOpcodes ++ operandOpcodes → ∀ (rest : List Word) (s : State),
        step (withCommands s (w :: rest)) = .next (afterReject 1 (withCommands s rest)))
    ∧ (w.toNat / 256 ∈ bareOpcodes → w.toNat % 256 ≠ 0 → ∀ (rest : List Word) (s : State),
        step (withCommands s (w :: rest)) = .next (afterReject 2 (withCommands s rest)))
    ∧ (w.toNat / 256 ∈ operandOpcodes ∨ (w.toNat / 256 ∈ bareOpcodes ∧ w.toNat % 256 = 0) →
        ∃ i, decode w = .ok i ∧ i.opcode.toNat = w.toNat / 256 ∧ i.operandByte.toNat = w.toNat % 256
          ∧ ∀ (rest : List Word) (s : State),
              step (withCommands s (w :: rest)) = exec i (withCommands s rest))

/-- The 243 reserved opcodes of R95 are exactly the illegal ones, 0x00 among them; such a word, and a word with a nonzero
operand on a command without one, is rejected and changes nothing but the error record (R95). -/
def Obligations.ReservedWordsAreRejected : Prop :=
  ((List.range 256).filter reservedOpcode).length = 243
  ∧ (∀ w : Word, reservedOpcode (w.toNat / 256) = true ↔ decode w = .error .illegalOpcode)
  ∧ (∀ (w : Word) (rest : List Word) (s : State), reservedOpcode (w.toNat / 256) = true →
      step (withCommands s (w :: rest)) = .next (afterReject 1 (withCommands s rest)))
  ∧ (∀ (w : Word) (rest : List Word) (s : State), w.toNat / 256 ∈ bareOpcodes → w.toNat % 256 ≠ 0 →
      step (withCommands s (w :: rest)) = .next (afterReject 2 (withCommands s rest)))

/-- Words written out from the opcode map decode to the commands they stand for (R93). -/
def Obligations.OpcodeMapWordsDecode : Prop :=
  decode 0x0100 = .ok .reset ∧ decode 0x0200 = .ok .clrErr ∧ decode 0x0302 = .ok (.readReg 2)
  ∧ decode 0x1000 = .ok .crcClear ∧ decode 0x1131 = .ok (.crcByte 0x31) ∧ decode 0x1200 = .ok .crcFinish
  ∧ decode 0x20AB = .ok (.fbData 0xAB) ∧ decode 0x2100 = .ok .fbEnd ∧ decode 0x2242 = .ok (.fbRead 66)
  ∧ decode 0x2300 = .ok .fbAck ∧ decode 0x2400 = .ok .fbSentinel ∧ decode 0x304F = .ok (.pmFeed 0x4F)
  ∧ decode 0x3100 = .ok .pmClear

/-- Which words a line gives (R99): a mnemonic without operand gives the opcode and 0; a mnemonic with an operand from 0 to 255,
in decimal, in hex or as a quoted printable character, gives the opcode and that byte, out-of-range indices and register numbers
too; a register name on READ_REG gives its number; a comment gives nothing and takes nothing away. Every word a line gives
decodes. -/
def Obligations.AssemblerWritesTheListedWords : Prop :=
  (∀ r ∈ bareRows, assembleLine r.1 = .ok [r.2 ++ 0x00#8]
    ∧ ∀ c : List Char, assembleLine (commandLine r.1 (';' :: c)) = .ok [r.2 ++ 0x00#8])
  ∧ (∀ r ∈ operandRows, ∀ x : Byte,
      assembleLine (commandLine r.1 (decimalText x.toNat)) = .ok [r.2 ++ x]
      ∧ assembleLine (commandLine r.1 (hexText x)) = .ok [r.2 ++ x]
      ∧ ∀ c : List Char, assembleLine (commandLine r.1 (decimalText x.toNat ++ ' ' :: ';' :: c)) = .ok [r.2 ++ x])
  ∧ (∀ r ∈ operandRows, ∀ c : Char, 0x20 ≤ c.toNat → c.toNat ≤ 0x7E →
      assembleLine (commandLine r.1 ['\'', c, '\'']) = .ok [r.2 ++ BitVec.ofNat 8 c.toNat])
  ∧ (assembleLine "READ_REG STATUS" = .ok [0x0300] ∧ assembleLine "READ_REG CRC_REG" = .ok [0x0301]
      ∧ assembleLine "READ_REG CRC_OUT" = .ok [0x0302] ∧ assembleLine "READ_REG PAGE" = .ok [0x0303]
      ∧ assembleLine "READ_REG ERR_CODE" = .ok [0x0304])
  ∧ (assembleLine "" = .ok [] ∧ ∀ c : List Char, assembleLine (String.ofList (';' :: c)) = .ok [])
  ∧ (∀ (line : String) (ws : List Word), assembleLine line = .ok ws → ∀ w ∈ ws, ∃ i, decode w = .ok i)

/-- What the assembler refuses (R99): an operand on a command without one, a missing operand, a second operand, a value above 255
however large, a register name on anything but READ_REG, a mnemonic not in upper case. The names of the refusals are the
model's. -/
def Obligations.AssemblerRefusesMalformedLines : Prop :=
  (∀ r ∈ bareRows, ∀ n : Nat, assembleLine (commandLine r.1 (decimalText n)) = .error .extraOperand)
  ∧ (∀ r ∈ operandRows, assembleLine r.1 = .error .missingOperand
      ∧ ∀ c : List Char, assembleLine (commandLine r.1 (';' :: c)) = .error .missingOperand)
  ∧ (∀ r ∈ operandRows, ∀ x y : Byte,
      assembleLine (commandLine r.1 (decimalText x.toNat ++ ' ' :: decimalText y.toNat)) = .error .extraOperand)
  ∧ (∀ r ∈ operandRows, ∀ n : Nat, 255 < n →
      assembleLine (commandLine r.1 (decimalText n)) = .error .valueAbove255)
  ∧ (∀ r ∈ operandRows, r.1 ≠ "READ_REG" → ∀ name ∈ ["STATUS", "CRC_REG", "CRC_OUT", "PAGE", "ERR_CODE"],
      assembleLine (commandLine r.1 name.toList) = .error .regnameOutsideReadReg)
  ∧ (assembleLine "reset" = .error .unknownMnemonic ∧ assembleLine "crc_byte 0" = .error .unknownMnemonic)

/-- Each pseudo-instruction gives the words of its expansion (R100), over every list of one or more comma-separated numbers,
decimal or hex, with and without a blank after the comma, and over every double-quoted ASCII string, the empty one too. A double
quote cannot stand inside a string (log entry 13). -/
def Obligations.PseudoInstructionsGiveTheirExpansion : Prop :=
  (∀ d : List Byte, d ≠ [] → ∀ text ∈ [listText [','] (decimalText ·.toNat) d, listText [',', ' '] (decimalText ·.toNat) d,
      listText [','] hexText d, listText [',', ' '] hexText d],
    assembleLine (commandLine "CRC_BYTES" text) = .ok (d.map fun b => 0x11#8 ++ b)
    ∧ assembleLine (commandLine "CRC16" text) = .ok (0x1000 :: (d.map fun b => 0x11#8 ++ b) ++ [0x1200])
    ∧ assembleLine (commandLine "FB_BYTES" text) = .ok (d.map fun b => 0x20#8 ++ b)
    ∧ assembleLine (commandLine "PM_FEEDS" text) = .ok (d.map fun b => 0x30#8 ++ b))
  ∧ (∀ cs : List Char, (∀ c ∈ cs, c.toNat < 128 ∧ c ≠ '"') →
    assembleLine (commandLine "CRC_BYTES" ('"' :: cs ++ ['"'])) = .ok (cs.map fun c => 0x11#8 ++ BitVec.ofNat 8 c.toNat)
    ∧ assembleLine (commandLine "CRC16" ('"' :: cs ++ ['"']))
      = .ok (0x1000 :: (cs.map fun c => 0x11#8 ++ BitVec.ofNat 8 c.toNat) ++ [0x1200])
    ∧ assembleLine (commandLine "FB_BYTES" ('"' :: cs ++ ['"'])) = .ok (cs.map fun c => 0x20#8 ++ BitVec.ofNat 8 c.toNat)
    ∧ assembleLine (commandLine "PM_FEEDS" ('"' :: cs ++ ['"'])) = .ok (cs.map fun c => 0x30#8 ++ BitVec.ofNat 8 c.toNat))
  ∧ assembleLine "FB_READ_ALL" = .ok ((List.range 67).map fun k => 0x22#8 ++ BitVec.ofNat 8 k)

/-! ## Steps (00_scope.md R21, 20_memory.md R70) -/

/-- A step whose next command word decodes runs that command, on the state with the word taken. -/
def Obligations.StepRunsTheDecodedCommand : Prop :=
  ∀ (s : State) (w : Word) (rest : List Word) (i : Instr), s.commands = w :: rest → decode w = .ok i →
    step s = exec i (withCommands s rest)

/-- A step with no command issued changes nothing. The model's choice (log entry 1); the spec says that between commands the
block is idle and holds its state. -/
def Obligations.IdleStepHoldsTheState : Prop :=
  ∀ s : State, s.commands = [] → step s = .next s

/-- Running the words of a list of commands through the step function is executing the commands one after another, so the
statements over `execAll` are about runs of the machine (20_memory.md R70). -/
def Obligations.RunOfWordsExecutesTheCommands : Prop :=
  ∀ (is : List Instr) (s : State) (rest : List Word), (∀ i ∈ is, i.wellFormed = true) →
    Host.Core.run core is.length (withCommands s (is.map encode ++ rest)) = execAll is (withCommands s rest)

/-! ## The CRC function (40_crc.md section 1) -/

/-- The augmented step as arithmetic: twice the register plus the bit, modulo 2^16, xor 0x8005 if bit 15 was set (R120). -/
def Obligations.AugmentedStepShiftsThenReduces : Prop :=
  ∀ (reg : Word) (bit : Bool),
    (crcStep reg bit).toNat
      = Nat.xor ((2 * reg.toNat + bit.toNat) % 65536) (if 32768 ≤ reg.toNat then 0x8005 else 0)

/-- The bits of a byte enter the CRC least significant first (R121, 20_memory.md R64). -/
def Obligations.CrcByteTakesLowBitFirst : Prop :=
  ∀ (reg : Word) (b : Byte),
    crcByte reg b = (List.range 8).foldl (fun acc k => crcStep acc (b.getLsbD k)) reg

/-- Masking to 16 bits after each byte only, on an unbounded register, gives what masking after every step gives (R124). -/
def Obligations.MaskingAfterEachByteIsExact : Prop :=
  ∀ (reg : Word) (b : Byte), byteMaskedCrc reg.toNat b = (crcByte reg b).toNat

/-- The augmented algorithm equals the direct right-shift form on every byte sequence (R125). -/
def Obligations.CrcEqualsDirectForm : Prop :=
  ∀ d : List Byte, crc16 d = crc16Direct d

/-- The laws of CRC arithmetic: the empty sequence, leading zero bytes, and linearity of the step, of a byte, of the finish
and of the whole CRC over exclusive or (R126). -/
def Obligations.CrcIsLinearOverXor : Prop :=
  crc16 [] = 0x0000
  ∧ crcByte 0x0000 0x00 = 0x0000
  ∧ (∀ d : List Byte, crc16 (0x00 :: d) = crc16 d)
  ∧ (∀ (p q : Word) (a b : Bool), crcStep (p ^^^ q) (a ^^ b) = crcStep p a ^^^ crcStep q b)
  ∧ (∀ (p q : Word) (a b : Byte), crcByte (p ^^^ q) (a ^^^ b) = crcByte p a ^^^ crcByte q b)
  ∧ (∀ p q : Word, crcFinish (p ^^^ q) = crcFinish p ^^^ crcFinish q)
  ∧ (∀ a b : List Byte, a.length = b.length →
      crc16 (List.zipWith (fun x y => x ^^^ y) a b) = crc16 a ^^^ crc16 b)

/-- The check value: the CRC of the ASCII digits 1 to 9 is 0xBB3D (R131). -/
def Obligations.CrcOfCheckStringIsBB3D : Prop :=
  crc16 [0x31, 0x32, 0x33, 0x34, 0x35, 0x36, 0x37, 0x38, 0x39] = 0xBB3D

/-- Appending the CRC of a message low byte first leaves residue zero; so the 67 bytes of every held data frame have CRC zero,
and the sentinel's do not (R132). -/
def Obligations.AppendedCrcLeavesZeroResidue : Prop :=
  (∀ d : List Byte, crc16 (d ++ [(crc16 d).extractLsb' 0 8, (crc16 d).extractLsb' 8 8]) = 0x0000)
  ∧ (∀ s : State, FrameSound s → s.frameValid = true → s.frameKind = .data →
      ∃ F, readFrameBytes s.fbBuf 0 67 = .ok F ∧ crc16 F = 0x0000)
  ∧ crc16 (List.replicate 67 0xFF) = 0x940D

/-! ## The CRC unit (40_crc.md section 3) -/

/-- CRC_CLEAR, whole (R127). -/
def Obligations.CrcClearStartsAMessage : Prop :=
  (∀ x : Byte, decode (0x10#8 ++ x) = if x = 0 then .ok .crcClear else .error .nonzeroOperand)
  ∧ ∀ s : State, exec .crcClear s = .next { s with crcReg := 0x0000, responses := ⟨0, 0x0000⟩ :: s.responses }

/-- CRC_BYTE, whole, with the corner cases of R128. -/
def Obligations.CrcByteFeedsOneByte : Prop :=
  (∀ x : Byte, decode (0x11#8 ++ x) = .ok (.crcByte x))
  ∧ (∀ (b : Byte) (s : State), exec (.crcByte b) s
      = .next { s with
          crcReg := crcByte s.crcReg b
          responses := ⟨0, crcByte s.crcReg b⟩ :: s.responses })
  ∧ crcByte 0x0000 0x00 = 0x0000 ∧ crcByte 0x0000 0x01 = 0x0080 ∧ crcByte 0x0000 0x80 = 0x0001
  ∧ crcByte 0x0000 0xFF = 0x00FF ∧ crcByte 0x0000 0x31 = 0x008C

/-- CRC_FINISH, whole: it is not destructive, a second one gives the same value, and a zero register finishes to zero;
with the rule's example (R129). -/
def Obligations.CrcFinishIsNotDestructive : Prop :=
  (∀ x : Byte, decode (0x12#8 ++ x) = if x = 0 then .ok .crcFinish else .error .nonzeroOperand)
  ∧ (∀ s : State, exec .crcFinish s
      = .next { s with
          crcOut := crcFinish s.crcReg
          responses := ⟨0, crcFinish s.crcReg⟩ :: s.responses })
  ∧ (∀ s : State, execAll [.crcFinish, .crcFinish] s
      = .next { s with
          crcOut := crcFinish s.crcReg
          responses := ⟨0, crcFinish s.crcReg⟩ :: ⟨0, crcFinish s.crcReg⟩ :: s.responses })
  ∧ crcFinish 0x0000 = 0x0000
  ∧ [0x31, 0x32, 0x33, 0x34, 0x35, 0x36, 0x37, 0x38, 0x39].foldl crcByte 0x0000 = 0x0A25
  ∧ crcFinish 0x0A25 = 0xBB3D

/-- CRC_CLEAR, the bytes, CRC_FINISH compute the CRC of the bytes, whatever commands of other units come between; RESET, which
clears the CRC unit too (10_state.md R45), is not among them (R130). -/
def Obligations.ClearFeedFinishComputesTheCrc : Prop :=
  ∀ (d : List Byte) (is : List Instr) (s : State), Legal s → .reset ∉ is →
    is.filter isCrcUnit = .crcClear :: crcBytes d →
    ∃ t, execAll (is ++ [.crcFinish]) s = .next t ∧ t.crcOut = crc16 d ∧ t.responses.head? = some ⟨0, crc16 d⟩

/-- The frame of the CRC unit's commands: beside CRC_REG (CRC_CLEAR, CRC_BYTE) and CRC_OUT (CRC_FINISH) nothing changes but the
response given (10_state.md R45). -/
def Obligations.CrcCommandsLeaveTheRest : Prop :=
  ∀ (b : Byte) (s t : State),
    (exec .crcClear s = .next t ∨ exec (.crcByte b) s = .next t ∨ exec .crcFinish s = .next t →
      FrameBuilderKept s t ∧ ErrorRecordKept s t ∧ BufferKept s t ∧ t.pmState = s.pmState ∧ t.commands = s.commands)
    ∧ (exec .crcClear s = .next t ∨ exec (.crcByte b) s = .next t → t.crcOut = s.crcOut)
    ∧ (exec .crcFinish s = .next t → t.crcReg = s.crcReg)

/-! ## The frame builder (41_frame.md) -/

/-- FB_DATA, whole: the two rejects in their order, a byte stored in an open page, and the 64th byte, which completes the frame
(R151, R150). -/
def Obligations.FbDataPushesOneByte : Prop :=
  (∀ x : Byte, decode (0x20#8 ++ x) = .ok (.fbData x))
  ∧ ∀ (b : Byte) (s : State),
    (s.frameValid = true → exec (.fbData b) s = .next (afterReject 3 s))
    ∧ (s.frameValid = false → s.exhausted = true → exec (.fbData b) s = .next (afterReject 4 s))
    ∧ (s.frameValid = false → s.exhausted = false → s.fill.toNat < 63 →
        exec (.fbData b) s = .next { s with
          fbBuf := s.fbBuf.store (1 + s.fill.toNat) b
          fill := s.fill + 1
          responses := ⟨0, BitVec.ofNat 16 (s.fill.toNat + 1)⟩ :: s.responses })
    ∧ (Legal s → s.frameValid = false → s.exhausted = false → s.fill.toNat = 63 →
        ∃ covered, readFrameBytes ((s.fbBuf.store 64 b).store 0 s.page) 0 65 = .ok covered
          ∧ exec (.fbData b) s = .next { s with
              fbBuf := (((s.fbBuf.store 64 b).store 0 s.page).store 65 ((crc16 covered).extractLsb' 0 8)).store 66
                ((crc16 covered).extractLsb' 8 8)
              page := s.page + 1
              fill := 64
              frameValid := true
              frameKind := .data
              responses := ⟨0, 0x0040⟩ :: s.responses })

/-- FB_END, whole: rejected while a frame is held, exhausting the stream on an empty page, completing a short page as a padded
frame otherwise; with the rule's example (R152, R150). -/
def Obligations.FbEndEndsTheStream : Prop :=
  (∀ x : Byte, decode (0x21#8 ++ x) = if x = 0 then .ok .fbEnd else .error .nonzeroOperand)
  ∧ (∀ s : State,
    (s.frameValid = true → exec .fbEnd s = .next (afterReject 3 s))
    ∧ (s.frameValid = false → s.fill.toNat = 0 →
        exec .fbEnd s = .next { s with exhausted := true, responses := ⟨0, 0x0000⟩ :: s.responses })
    ∧ (Legal s → s.frameValid = false → 1 ≤ s.fill.toNat →
        ∃ m covered, (∀ k, m.byteAt k = if k = 0 then some s.page
              else if 1 + s.fill.toNat ≤ k ∧ k ≤ 64 then some 0xFF else s.fbBuf.byteAt k)
          ∧ readFrameBytes m 0 65 = .ok covered
          ∧ exec .fbEnd s = .next { s with
              fbBuf := (m.store 65 ((crc16 covered).extractLsb' 0 8)).store 66 ((crc16 covered).extractLsb' 8 8)
              page := s.page + 1
              frameValid := true
              frameKind := .data
              responses := ⟨0, BitVec.ofNat 16 s.fill.toNat⟩ :: s.responses }))
  ∧ ∃ t, execAll (fbBytes [0x01, 0x02, 0x03] ++ [.fbEnd]) State.reset = .next t
      ∧ readFrameBytes t.fbBuf 0 67
          = .ok ([0x00, 0x01, 0x02, 0x03] ++ List.replicate 61 0xFF ++ [0x16, 0xB3])
      ∧ t.page = 1 ∧ t.responses.head? = some ⟨0, 0x0003⟩

/-- FB_READ, whole: the index is checked before the frame, and a read gives the byte and changes nothing else (R153,
20_memory.md R66, R67). -/
def Obligations.FbReadReadsOneByte : Prop :=
  (∀ x : Byte, decode (0x22#8 ++ x) = .ok (.fbRead x.toNat))
  ∧ ∀ (i : Nat) (s : State),
    (66 < i → i < 256 → exec (.fbRead i) s = .next (afterReject 6 s))
    ∧ (i ≤ 66 → s.frameValid = false → exec (.fbRead i) s = .next (afterReject 5 s))
    ∧ (i ≤ 66 → s.frameValid = true → Legal s →
        ∃ b, s.fbBuf.byteAt i = some b
          ∧ exec (.fbRead i) s = .next { s with responses := ⟨0, BitVec.ofNat 16 b.toNat⟩ :: s.responses })

/-- FB_ACK, whole (R154). -/
def Obligations.FbAckReleasesTheFrame : Prop :=
  (∀ x : Byte, decode (0x23#8 ++ x) = if x = 0 then .ok .fbAck else .error .nonzeroOperand)
  ∧ ∀ s : State,
    (s.frameValid = false → exec .fbAck s = .next (afterReject 5 s))
    ∧ (s.frameValid = true → exec .fbAck s = .next { s with
        frameValid := false
        frameKind := .data
        fill := 0
        responses := ⟨0, 0x0000⟩ :: s.responses })

/-- FB_SENTINEL, whole: all 67 bytes 0xFF, PAGE and EXHAUSTED unchanged (R155). -/
def Obligations.FbSentinelLoadsAllOnes : Prop :=
  (∀ x : Byte, decode (0x24#8 ++ x) = if x = 0 then .ok .fbSentinel else .error .nonzeroOperand)
  ∧ ∀ s : State,
    (s.frameValid = true → exec .fbSentinel s = .next (afterReject 3 s))
    ∧ (s.frameValid = false → s.fill.toNat ≠ 0 → exec .fbSentinel s = .next (afterReject 8 s))
    ∧ (s.frameValid = false → s.fill.toNat = 0 →
        ∃ m, (∀ k < 67, m.byteAt k = some 0xFF)
          ∧ exec .fbSentinel s = .next { s with
              fbBuf := m
              frameValid := true
              frameKind := .sentinel
              responses := ⟨0, 0x0000⟩ :: s.responses })

/-- The frame of the storing commands. FB_DATA stores at `1 + FILL`, and its 64th byte also at 0, 65 and 66; FB_END that
completes stores at 0, from `1 + FILL` to 64, and at 65 and 66; FB_SENTINEL at 0 to 66. Every other byte reads as before, and
the registers of the other units stay (10_state.md R45, 20_memory.md R60). -/
def Obligations.StoringCommandsLeaveTheRest : Prop :=
  ∀ (b : Byte) (s t : State),
    (exec (.fbData b) s = .next t →
      OtherUnitsKept s t ∧ t.exhausted = s.exhausted
      ∧ (s.frameValid = true ∨ s.exhausted = true → FrameBuilderKept s t ∧ BufferKept s t)
      ∧ (s.frameValid = false ∧ s.exhausted = false → ErrorRecordKept s t
          ∧ (s.fill.toNat ≠ 63 → t.page = s.page ∧ t.frameValid = s.frameValid ∧ t.frameKind = s.frameKind
              ∧ ∀ a, a ≠ dataIndex s → t.fbBuf.byteAt a = s.fbBuf.byteAt a)
          ∧ (s.fill.toNat = 63 → ∀ a, a ≠ 0 → a ≠ dataIndex s → a ≠ 65 → a ≠ 66 →
              t.fbBuf.byteAt a = s.fbBuf.byteAt a)))
    ∧ (exec .fbEnd s = .next t →
      OtherUnitsKept s t ∧ t.fill = s.fill
      ∧ (s.frameValid = true → FrameBuilderKept s t ∧ BufferKept s t)
      ∧ (s.frameValid = false → ErrorRecordKept s t)
      ∧ (s.frameValid = false → s.fill.toNat = 0 → BufferKept s t ∧ t.page = s.page
          ∧ t.frameValid = s.frameValid ∧ t.frameKind = s.frameKind)
      ∧ (s.frameValid = false → s.fill.toNat ≠ 0 → t.exhausted = s.exhausted
          ∧ ∀ a, a ≠ 0 → ¬(dataIndex s ≤ a ∧ a ≤ 64) → a ≠ 65 → a ≠ 66 →
              t.fbBuf.byteAt a = s.fbBuf.byteAt a))
    ∧ (exec .fbSentinel s = .next t →
      OtherUnitsKept s t ∧ t.page = s.page ∧ t.fill = s.fill ∧ t.exhausted = s.exhausted
      ∧ (s.frameValid = true ∨ s.fill.toNat ≠ 0 → FrameBuilderKept s t ∧ BufferKept s t)
      ∧ (s.frameValid = false → s.fill.toNat = 0 → ErrorRecordKept s t
          ∧ ∀ a, 66 < a → t.fbBuf.byteAt a = s.fbBuf.byteAt a))

/-- The frame of FB_READ and FB_ACK: neither stores, FB_READ writes no register of the frame builder, FB_ACK leaves PAGE and
EXHAUSTED, and the error record changes only where no frame is held or the index is out of range (R153, R154). -/
def Obligations.NonStoringFrameCommandsLeaveTheRest : Prop :=
  ∀ (i : Nat) (s t : State),
    (exec (.fbRead i) s = .next t →
      OtherUnitsKept s t ∧ FrameBuilderKept s t ∧ BufferKept s t
      ∧ (i ≤ 66 → s.frameValid = true → ErrorRecordKept s t))
    ∧ (exec .fbAck s = .next t →
      OtherUnitsKept s t ∧ BufferKept s t ∧ t.page = s.page ∧ t.exhausted = s.exhausted
      ∧ (s.frameValid = true → ErrorRecordKept s t)
      ∧ (s.frameValid = false → FrameBuilderKept s t))

/-- The source's next_frame as command sequences: a full page of 64 bytes, a short page of 1 to 63 and FB_END, and an FB_END
with no byte, which makes no frame and sets EXHAUSTED. The frame is the page number, the data, the padding and the CRC, and
FILL and the last response are bytes_read (R156, R150, R159). -/
def Obligations.PageOfBytesBecomesTheWireFrame : Prop :=
  ∀ (data : List Byte) (s : State),
    Legal s → s.frameValid = false → s.exhausted = false → s.fill.toNat = 0 → data.length ≤ 64 →
    (1 ≤ data.length →
      ∃ m rs, execAll (fbBytes data ++ (if data.length = 64 then [] else [.fbEnd])) s = .next { s with
            fbBuf := m
            page := s.page + 1
            fill := BitVec.ofNat 7 data.length
            frameValid := true
            frameKind := .data
            responses := ⟨0, BitVec.ofNat 16 data.length⟩ :: rs }
          ∧ readFrameBytes m 0 67 = .ok (wireFrame s.page data))
    ∧ (data.length = 0 →
      execAll (fbBytes data ++ [.fbEnd]) s
        = .next { s with exhausted := true, responses := ⟨0, 0x0000⟩ :: s.responses })

/-- Padding cannot be told from trailing 0xFF input by the frame alone: a short page, and the same input filled up to 64 bytes
with 0xFF, give the same 67 bytes, and FILL is the one register that differs; with the rule's example, CRC 0x9041 (R159). -/
def Obligations.OnlyFillTellsPaddingFromInput : Prop :=
  (∀ (data : List Byte) (s : State),
    Legal s → s.frameValid = false → s.exhausted = false → s.fill.toNat = 0 →
    1 ≤ data.length → data.length < 64 →
    ∃ t u, execAll (fbBytes data ++ [.fbEnd]) s = .next t
      ∧ execAll (fbBytes (data ++ List.replicate (64 - data.length) 0xFF)) s = .next u
      ∧ t.frameValid = true ∧ u.frameValid = true
      ∧ (∀ k < 67, t.fbBuf.byteAt k = u.fbBuf.byteAt k)
      ∧ t.fill.toNat = data.length ∧ u.fill.toNat = 64
      ∧ u = { t with fill := u.fill, fbBuf := u.fbBuf, responses := u.responses })
  ∧ crc16 (0x00 :: List.replicate 64 0xFF) = 0x9041

/-- The data frames completed since reset carry the page numbers 0, 1, 2, ... modulo 256, whatever other commands come
between: the frame that completes after n others carries n mod 256, and PAGE is then n + 1 mod 256. A state right after reset
has PAGE 0 (R157, 10_state.md R34). -/
def Obligations.DataFramesCarryConsecutivePageNumbers : Prop :=
  ∀ (is : List Instr) (i : Instr) (s u t : State), s.page = 0 → .reset ∉ is → i ≠ .reset →
    execAll is s = .next u → exec i u = .next t →
    (Completes u t → t.fbBuf.byteAt 0 = some (BitVec.ofNat 8 (dataFrames is s))
      ∧ t.page = BitVec.ofNat 8 (dataFrames is s + 1))
    ∧ (¬ Completes u t → t.page = BitVec.ofNat 8 (dataFrames is s))

/-- Every step keeps a held data frame sound (page number, padding, CRC of the first 65 bytes low byte first) and a held
sentinel frame all 0xFF; the sentinel's own CRC would be 0x7010 (R158, R155). -/
def Obligations.StepKeepsHeldFramesSound : Prop :=
  (∀ s t : State, FrameSound s → step s = .next t → FrameSound t)
  ∧ crc16 (List.replicate 65 0xFF) = 0x7010

/-- Ending a stream takes two FB_END when the last page is short, one when no byte is pending; EXHAUSTED then stays until RESET,
and while no frame is held every FB_DATA is rejected with code 4 (70_reset_and_hazards.md R265). -/
def Obligations.ExhaustionLastsUntilReset : Prop :=
  (∀ s : State, Legal s → s.frameValid = false → 1 ≤ s.fill.toNat →
    ∃ t u, exec .fbEnd s = .next t ∧ t.exhausted = false ∧ t.frameValid = true
      ∧ execAll [.fbAck, .fbEnd] t = .next u ∧ u.exhausted = true ∧ u.frameValid = false)
  ∧ (∀ (is : List Instr) (s : State), Legal s → s.exhausted = true → .reset ∉ is →
      ∃ t, execAll is s = .next t ∧ t.exhausted = true
        ∧ ∀ b : Byte, t.frameValid = false → exec (.fbData b) t = .next (afterReject 4 t))

/-! ## The marker matcher (42_match.md) -/

/-- The transition table of R190: rows are the states Idle to Matched, columns the bytes 'A' 'S' 'U' 'R' 'O'; any other byte
gives Idle from every state. -/
def Obligations.TransitionTable : Prop :=
  ([.idle, .sawA, .sawAS, .sawASU, .sawASUR, .matched].map fun p =>
      [0x41, 0x53, 0x55, 0x52, 0x4F].map fun b => (delta p b).number)
    = [[1, 0, 0, 0, 0], [1, 2, 0, 0, 0], [1, 0, 3, 0, 0], [1, 0, 0, 4, 0], [1, 0, 0, 0, 5], [1, 0, 0, 0, 0]]
  ∧ ∀ (p : ConnectState) (b : Byte), b ∉ [(0x41 : Byte), 0x53, 0x55, 0x52, 0x4F] → delta p b = .idle

/-- PM_FEED, whole, with its example (R191). -/
def Obligations.PmFeedAdvancesTheMatcher : Prop :=
  (∀ x : Byte, decode (0x30#8 ++ x) = .ok (.pmFeed x))
  ∧ (∀ (b : Byte) (s : State), exec (.pmFeed b) s = .next { s with
      pmState := delta s.pmState b
      responses := ⟨0, BitVec.ofNat 16 (delta s.pmState b).number.toNat⟩ :: s.responses })
  ∧ (∀ p : ConnectState, delta p 0x41 = .sawA)
  ∧ (∀ b : Byte, b ≠ 0x41 → delta .matched b = .idle)
  ∧ (∀ p : ConnectState, delta p 0x00 = .idle ∧ delta p 0xFF = .idle)
  ∧ delta .sawASUR 0x4F = .matched

/-- PM_CLEAR, whole (R192). -/
def Obligations.PmClearReturnsToIdle : Prop :=
  (∀ x : Byte, decode (0x31#8 ++ x) = if x = 0 then .ok .pmClear else .error .nonzeroOperand)
  ∧ ∀ s : State, exec .pmClear s
      = .next { s with pmState := .idle, responses := ⟨0, 0x0000⟩ :: s.responses }

/-- The frame of the matcher's commands: only PM_STATE changes, and the response is given (10_state.md R45). -/
def Obligations.MatcherCommandsLeaveTheRest : Prop :=
  ∀ (b : Byte) (s t : State), exec (.pmFeed b) s = .next t ∨ exec .pmClear s = .next t →
    t.crcReg = s.crcReg ∧ t.crcOut = s.crcOut ∧ FrameBuilderKept s t ∧ ErrorRecordKept s t ∧ BufferKept s t
      ∧ t.commands = s.commands

/-- For the bytes fed since the matcher was last Idle by PM_CLEAR or reset, PM_STATE is the length of the longest prefix of
"ASURO" that the bytes end with, whatever other commands come between; so it is Matched exactly when the last five bytes are
"ASURO", and it depends on the last five bytes alone (R193). -/
def Obligations.MatcherTracksTheLongestMarkerPrefix : Prop :=
  ∀ (is : List Instr) (s : State), Legal s → s.pmState = .idle → .pmClear ∉ is → .reset ∉ is →
    ∃ t, execAll is s = .next t
      ∧ t.pmState.number.toNat ≤ 5
      ∧ Config.marker.take t.pmState.number.toNat <:+ is.filterMap fedByte
      ∧ (∀ j ≤ 5, Config.marker.take j <:+ is.filterMap fedByte → j ≤ t.pmState.number.toNat)
      ∧ (t.pmState = .matched ↔ Config.marker <:+ is.filterMap fedByte)
      ∧ t.pmState
          = ((is.filterMap fedByte).drop ((is.filterMap fedByte).length - 5)).foldl delta .idle

/-- The source's three matcher examples (R194). -/
def Obligations.MatcherExamples : Prop :=
  (∃ t, execAll (pmFeeds [0x41, 0x53, 0x55, 0x52, 0x4F]) State.reset = .next t
    ∧ t.responses.reverse = [⟨0, 1⟩, ⟨0, 2⟩, ⟨0, 3⟩, ⟨0, 4⟩, ⟨0, 5⟩])
  ∧ (∃ t, execAll (pmFeeds [0x41, 0x53, 0x58, 0x41, 0x53, 0x55, 0x52, 0x4F]) State.reset = .next t
    ∧ t.responses.reverse = [⟨0, 1⟩, ⟨0, 2⟩, ⟨0, 0⟩, ⟨0, 1⟩, ⟨0, 2⟩, ⟨0, 3⟩, ⟨0, 4⟩, ⟨0, 5⟩])
  ∧ (∃ t, execAll (pmFeeds [0x53, 0x55, 0x52, 0x4F]) State.reset = .next t
    ∧ t.responses.reverse = [⟨0, 0⟩, ⟨0, 0⟩, ⟨0, 0⟩, ⟨0, 0⟩])

/-! ## Control commands (43_control.md) -/

/-- RESET, whole: every register at 0 (R210). R210 does not clear FB_BUF; that its bytes stay is deduced from that (log entry 5).
That the commands to come and the earlier responses stay is the model's choice (log entries 1 and 2), as both are its own
fields. -/
def Obligations.ResetClearsEveryRegister : Prop :=
  (∀ x : Byte, decode (0x01#8 ++ x) = if x = 0 then .ok .reset else .error .nonzeroOperand)
  ∧ ∀ s : State, exec .reset s = .next
      { crcReg := 0x0000, crcOut := 0x0000, page := 0x00, fill := 0, frameValid := false, frameKind := .data,
        exhausted := false, pmState := .idle, err := false, errCode := 0, fbBuf := s.fbBuf,
        commands := s.commands, responses := ⟨0, 0x0000⟩ :: s.responses }

/-- CLR_ERR, whole (R211). -/
def Obligations.ClrErrClearsTheRecord : Prop :=
  (∀ x : Byte, decode (0x02#8 ++ x) = if x = 0 then .ok .clrErr else .error .nonzeroOperand)
  ∧ ∀ s : State, exec .clrErr s
      = .next { s with err := false, errCode := 0, responses := ⟨0, 0x0000⟩ :: s.responses }

/-- READ_REG, whole: the five registers, any other number rejected, and nothing else changed (R212, 10_state.md R44). -/
def Obligations.ReadRegReadsOneRegister : Prop :=
  (∀ x : Byte, decode (0x03#8 ++ x) = .ok (.readReg x.toNat))
  ∧ ∀ s : State,
    (∀ r, 4 < r → r < 256 → exec (.readReg r) s = .next (afterReject 7 s))
    ∧ exec (.readReg 0) s = .next { s with responses := ⟨0, statusWord s⟩ :: s.responses }
    ∧ exec (.readReg 1) s = .next { s with responses := ⟨0, s.crcReg⟩ :: s.responses }
    ∧ exec (.readReg 2) s = .next { s with responses := ⟨0, s.crcOut⟩ :: s.responses }
    ∧ exec (.readReg 3) s = .next { s with responses := ⟨0, BitVec.ofNat 16 s.page.toNat⟩ :: s.responses }
    ∧ exec (.readReg 4) s = .next { s with responses := ⟨0, BitVec.ofNat 16 s.errCode.toNat⟩ :: s.responses }

/-- An index or a register number that no operand byte can carry is rejected as one that is out of range. The model's choice (log
entry 10): the spec's operands are 8-bit numbers, and no command word decodes to such a command. -/
def Obligations.NumbersBeyondAByteAreRejected : Prop :=
  (∀ (i : Nat) (s : State), 256 ≤ i → exec (.fbRead i) s = .next (afterReject 6 s))
  ∧ (∀ (r : Nat) (s : State), 256 ≤ r → exec (.readReg r) s = .next (afterReject 7 s))

/-- The frame of the control commands: CLR_ERR writes the error record alone, READ_REG at most the error record (when it is
rejected), RESET leaves every byte of FB_BUF (10_state.md R45). -/
def Obligations.ControlCommandsLeaveTheRest : Prop :=
  ∀ (r : Nat) (s t : State),
    (exec .clrErr s = .next t ∨ exec (.readReg r) s = .next t →
      OtherUnitsKept s t ∧ FrameBuilderKept s t ∧ BufferKept s t)
    ∧ (exec (.readReg r) s = .next t → r ≤ 4 → ErrorRecordKept s t)
    ∧ (exec .reset s = .next t → BufferKept s t ∧ t.commands = s.commands)

/-- The layout of STATUS, field by field (10_state.md R42). -/
def Obligations.StatusLayout : Prop :=
  (∀ s : State,
    (statusWord s).extractLsb' 0 3 = s.pmState.number
    ∧ (statusWord s).getLsbD 3 = decide (s.pmState.number.toNat = 5)
    ∧ (statusWord s).getLsbD 4 = s.frameValid
    ∧ (statusWord s).getLsbD 5 = decide (s.frameKind = .sentinel)
    ∧ (statusWord s).getLsbD 6 = s.exhausted
    ∧ (statusWord s).getLsbD 7 = s.err
    ∧ (statusWord s).extractLsb' 8 7 = s.fill
    ∧ (statusWord s).getLsbD 15 = false)
  ∧ statusWord State.reset = 0x0000

/-- Power-on and the RESET command have the same effect on the registers: both leave every register at the value its rule gives,
and RESET from any state leaves the registers as power-on does (70_reset_and_hazards.md R260). That RESET leaves FB_BUF as it is
follows R210, which does not clear it, where R260 lets it take any contents (log entry 5); that it leaves the commands to come and
the earlier responses is the model's choice (log entries 1 and 2). That FB_BUF holds no written byte after power-on (log entry 4)
is not stated. -/
def Obligations.PowerOnEqualsResetCommand : Prop :=
  State.reset.crcReg = 0x0000 ∧ State.reset.crcOut = 0x0000 ∧ State.reset.page = 0x00 ∧ State.reset.fill = 0
  ∧ State.reset.frameValid = false ∧ State.reset.frameKind = .data ∧ State.reset.exhausted = false
  ∧ State.reset.pmState = .idle ∧ State.reset.err = false ∧ State.reset.errCode = 0
  ∧ ∀ s : State, exec .reset s = .next { State.reset with
      fbBuf := s.fbBuf
      commands := s.commands
      responses := ⟨0, 0x0000⟩ :: s.responses }

/-! ## Errors (60_exceptions.md) -/

/-- Whatever the command word, a response with a nonzero code means a reject: nothing changed but the error record and the
response (R232). -/
def Obligations.RejectChangesOnlyTheErrorRecord : Prop :=
  ∀ (w : Word) (rest : List Word) (s t : State) (r : Response),
    step (withCommands s (w :: rest)) = .next t → t.responses.head? = some r → r.code ≠ 0 →
    t = afterReject r.code (withCommands s rest) ∧ r.value = 0x0000 ∧ 1 ≤ r.code.toNat ∧ r.code.toNat ≤ 8

/-- The error record keeps the first error until CLR_ERR or RESET, takes a reject's code when it was clear, and is left alone by
every accepted command (R233). -/
def Obligations.ErrorRecordKeepsTheFirstError : Prop :=
  ∀ (w : Word) (rest : List Word) (s t : State) (r : Response),
    step (withCommands s (w :: rest)) = .next t → t.responses.head? = some r →
    decode w ≠ .ok .clrErr → decode w ≠ .ok .reset →
    (s.err = true → t.err = true ∧ t.errCode = s.errCode)
    ∧ (s.err = false → r.code ≠ 0 → t.err = true ∧ t.errCode = r.code)
    ∧ (r.code = 0 → t.err = s.err ∧ t.errCode = s.errCode)

/-- Which commands are rejected, with which code, first match first: in every legal state the step answers, and the code of its
response is the table's (R235, R234). -/
def Obligations.ResponseCodeFollowsTheAcceptanceTable : Prop :=
  ∀ (w : Word) (rest : List Word) (s : State), Legal s →
    ∃ t r, step (withCommands s (w :: rest)) = .next t ∧ t.responses = r :: s.responses
      ∧ r.code = acceptanceCode w s

/-- Each command gives exactly one response; on a reject its value is 0, on success it is the command's result; packed, the code
is in bits 19:16 (30_encoding.md R97). -/
def Obligations.EveryCommandGivesOneResponse : Prop :=
  (∀ (w : Word) (rest : List Word) (s t : State), step (withCommands s (w :: rest)) = .next t →
    ∃ r, t.responses = r :: s.responses ∧ (r.code ≠ 0 → r.value = 0x0000))
  ∧ (∀ (i : Instr) (s t : State), exec i s = .next t →
    ∃ r, t.responses = r :: s.responses ∧ (r.code = 0 →
      match i with
      | .reset | .clrErr | .crcClear | .fbAck | .fbSentinel | .pmClear => r.value = 0x0000
      | .readReg k => readRegister s k = some r.value
      | .crcByte _ => r.value = t.crcReg
      | .crcFinish => r.value = crcFinish s.crcReg ∧ t.crcOut = r.value
      | .fbData _ => r.value.toNat = t.fill.toNat ∧ (Legal s → 1 ≤ t.fill.toNat ∧ t.fill.toNat ≤ 64)
      | .fbEnd => r.value.toNat = t.fill.toNat ∧ (Legal s → t.fill.toNat ≤ 63)
      | .fbRead k => ∃ b, s.fbBuf.byteAt k = some b ∧ r.value.toNat = b.toNat
      | .pmFeed _ => r.value.toNat = t.pmState.number.toNat))
  ∧ (∀ r : Response, r.pack.toNat = r.code.toNat * 65536 + r.value.toNat)

/-- No command stops the block: from every legal state a step answers with a next state, whatever the command word (R230). -/
def Obligations.LegalStatesNeverStop : Prop :=
  ∀ s : State, Legal s → ∃ t, step s = .next t

/-! ## The whole machine -/

/-- Every step keeps the relations of 10_state.md R43, the buffer's canonical form, and the written bytes of the held frame and
the open page. That the data bytes of an open page are written is the model's own clause (log entry 12). -/
def Obligations.StepKeepsStatesLegal : Prop :=
  ∀ s t : State, Legal s → step s = .next t → Legal t

/-- The state after reset is legal and holds no unsound frame (10_state.md R43). -/
def Obligations.ResetStateIsLegal : Prop :=
  Legal State.reset ∧ FrameSound State.reset

/-- Who writes what: each register changes only by the commands the table of 10_state.md R45 lists for it, FB_BUF too; a rejected
command, a word that does not decode too, changes the error record alone; READ_REG and FB_READ change nothing when they succeed (R45). -/
def Obligations.RegistersChangeOnlyByTheirCommands : Prop :=
  (∀ (i : Instr) (s t : State), exec i s = .next t →
    (t.crcReg ≠ s.crcReg → i = .crcClear ∨ (∃ b, i = .crcByte b) ∨ i = .reset)
    ∧ (t.crcOut ≠ s.crcOut → i = .crcFinish ∨ i = .reset)
    ∧ (t.page ≠ s.page → (((∃ b, i = .fbData b) ∨ i = .fbEnd) ∧ Completes s t) ∨ i = .reset)
    ∧ (t.fill ≠ s.fill → (∃ b, i = .fbData b) ∨ i = .fbAck ∨ i = .reset)
    ∧ (t.fbBuf ≠ s.fbBuf → (∃ b, i = .fbData b) ∨ (i = .fbEnd ∧ Completes s t) ∨ i = .fbSentinel)
    ∧ (t.frameValid ≠ s.frameValid → (((∃ b, i = .fbData b) ∨ i = .fbEnd) ∧ Completes s t)
        ∨ i = .fbSentinel ∨ i = .fbAck ∨ i = .reset)
    ∧ (t.frameKind ≠ s.frameKind → (((∃ b, i = .fbData b) ∨ i = .fbEnd) ∧ Completes s t)
        ∨ i = .fbSentinel ∨ i = .fbAck ∨ i = .reset)
    ∧ (t.exhausted ≠ s.exhausted → (i = .fbEnd ∧ s.fill = 0) ∨ i = .reset)
    ∧ (t.pmState ≠ s.pmState → (∃ b, i = .pmFeed b) ∨ i = .pmClear ∨ i = .reset)
    ∧ (t.err ≠ s.err ∨ t.errCode ≠ s.errCode →
        (∃ r, t.responses = r :: s.responses ∧ r.code ≠ 0) ∨ i = .clrErr ∨ i = .reset)
    ∧ (∀ r, t.responses = r :: s.responses → r.code ≠ 0 → t = afterReject r.code s)
    ∧ (∀ r, t.responses = r :: s.responses → r.code = 0 → (∃ k, i = .readReg k ∨ i = .fbRead k) →
        t = { s with responses := r :: s.responses })
    ∧ t.commands = s.commands)
  ∧ ∀ (w : Word) (e : DecodeError) (rest : List Word) (s : State), decode w = .error e →
      ∃ c, step (withCommands s (w :: rest)) = .next (afterReject c (withCommands s rest))

/-- What the frame buffer holds where the host cannot see it never shows: two buffers that agree on the held frame, or on the
data bytes taken so far, give the same responses and the same registers for every command sequence of any length
(20_memory.md R62, 10_state.md R47). -/
def Obligations.UnwrittenBufferIsUnobservable : Prop :=
  ∀ (n : Nat) (s : State) (m : Memory), Legal s → SameView s m →
    ∃ t u, Host.Core.run core n s = .next t ∧ Host.Core.run core n { s with fbBuf := m } = .next u
      ∧ u = { t with fbBuf := u.fbBuf } ∧ SameView t u.fbBuf

/-- The units are independent: a command that is none of the CRC unit's, not RESET and no read of CRC_REG or CRC_OUT does the
same whatever the CRC unit holds, and leaves it (92_eei_decisions.md D4, 41_frame.md). -/
def Obligations.CrcUnitIsIndependentOfTheOthers : Prop :=
  ∀ (i : Instr) (s : State) (p q : Word), isCrcUnit i = false → i ≠ .reset → i ≠ .readReg 1 → i ≠ .readReg 2 →
    exec i { s with crcReg := p, crcOut := q } = mapNext (fun t => { t with crcReg := p, crcOut := q }) (exec i s)
end

