-- ==== Sys2Proof/Laws/Assembler.lean ====
section
/-! SUPPORT. The assembler's parts: lines, numbers, comma-separated lists. What each helper of Machine/Assembler.lean answers
on the texts the statements write lines with, so that no proof unfolds the parser. -/

namespace Sys2Proof.Machine

open Sys2Proof.Safety

/-! ## Lines -/

@[simp] theorem isWordChar_eq_false_of_isBlank {c : Char} (h : isBlank c = true) : isWordChar c = false := by
  simp [isWordChar, h]

theorem isBlank_eq_false_of_isWordChar {c : Char} (h : isWordChar c = true) : isBlank c = false := by
  cases hb : isBlank c
  · rfl
  · rw [isWordChar_eq_false_of_isBlank hb] at h
    cases h

@[simp] theorem lineEnds_nil : lineEnds [] = true := rfl

@[simp] theorem lineEnds_comment (cs : List Char) : lineEnds (';' :: cs) = true := rfl

@[simp] theorem lineEnds_blank (cs : List Char) : lineEnds (' ' :: cs) = lineEnds cs := rfl

/-- A character of a word does not end the line. -/
theorem lineEnds_of_isWordChar {c : Char} (h : isWordChar c = true) (cs : List Char) : lineEnds (c :: cs) = false := by
  have hb := isBlank_eq_false_of_isWordChar h
  simp only [lineEnds, List.dropWhile_cons, hb, Bool.false_eq_true, if_false]
  simpa [isWordChar, hb] using h

/-- The word characters a text begins with, up to the first other character. -/
theorem takeWhile_isWordChar_append {w : List Char} (h : ∀ c ∈ w, isWordChar c = true) {d : Char} (hd : isWordChar d = false)
    (cs : List Char) : (w ++ d :: cs).takeWhile isWordChar = w ∧ (w ++ d :: cs).dropWhile isWordChar = d :: cs := by
  constructor
  · rw [List.takeWhile_append_of_pos h]
    simp [hd]
  · rw [List.dropWhile_append_of_pos h]
    simp [hd]

/-- A mnemonic of word characters, a blank and the rest are read as that mnemonic with that rest (30_encoding.md R99). -/
theorem parseLine_mnemonic {m : String} (hm : m.toList.all isWordChar = true) (hne : m.toList.isEmpty = false)
    (rest : List Char) : parseLine (m.toList ++ ' ' :: rest) = parseCommand m (rest.dropWhile isBlank) := by
  have h : ∀ x ∈ m.toList, isWordChar x = true := List.all_eq_true.mp hm
  obtain ⟨ht, hd⟩ := takeWhile_isWordChar_append h (show isWordChar ' ' = false by decide) rest
  obtain ⟨c, l, hl⟩ := List.exists_cons_of_ne_nil (List.isEmpty_eq_false_iff.mp hne)
  have hc : isWordChar c = true := h c (by simp [hl])
  have hs : (m.toList ++ ' ' :: rest).dropWhile isBlank = m.toList ++ ' ' :: rest := by
    simp [hl, isBlank_eq_false_of_isWordChar hc]
  have he : lineEnds (m.toList ++ ' ' :: rest) = false := by
    rw [hl]
    exact lineEnds_of_isWordChar hc _
  simp only [parseLine, hs, he, ht, hd, String.ofList_toList, Bool.false_eq_true, if_false]
  rfl

/-- A mnemonic and an operand assemble to the words of the commands they are read as. -/
theorem assembleLine_commandLine {m : String} (hm : m.toList.all isWordChar = true) (hne : m.toList.isEmpty = false)
    {operand : List Char} {is : List Instr} (h : parseCommand m (operand.dropWhile isBlank) = .ok is) :
    assembleLine (commandLine m operand) = .ok (is.map encode) := by
  rw [assembleLine, commandLine, String.toList_ofList, parseLine_mnemonic hm hne, h]

theorem assembleLine_commandLine_error {m : String} (hm : m.toList.all isWordChar = true) (hne : m.toList.isEmpty = false)
    {operand : List Char} {e : AsmError} (h : parseCommand m (operand.dropWhile isBlank) = .error e) :
    assembleLine (commandLine m operand) = .error e := by
  rw [assembleLine, commandLine, String.toList_ofList, parseLine_mnemonic hm hne, h]

/-- A command without operand, with nothing but a comment after it (30_encoding.md R99). -/
theorem parseCommand_bare {m : String} {is : List Instr} (hm : bareMnemonic m = some is) {rest : List Char}
    (hr : lineEnds rest = true) : parseCommand m rest = .ok is := by
  simp only [parseCommand, hm, hr, if_true]

theorem parseCommand_bare_error {m : String} {is : List Instr} (hm : bareMnemonic m = some is) {rest : List Char}
    (hr : lineEnds rest = false) : parseCommand m rest = .error .extraOperand := by
  simp only [parseCommand, hm, hr, Bool.false_eq_true, if_false]

/-- A command of form b, i or r with an operand `w` and the rest `after` (30_encoding.md R99). -/
theorem parseCommand_operand {m : String} {f : Byte → Instr} (hb : bareMnemonic m = none) (hm : operandMnemonic m = some f)
    {rest w after : List Char} (hr : lineEnds rest = false) (ht : operandToken rest = (w, after)) {x : Byte}
    (hx : parseOperand (m == "READ_REG") w = .ok x) :
    parseCommand m rest = if lineEnds after then .ok [f x] else .error .extraOperand := by
  simp only [parseCommand, hb, hm, hr, ht, hx, Bool.false_eq_true, if_false]

theorem parseCommand_operand_error {m : String} {f : Byte → Instr} (hb : bareMnemonic m = none)
    (hm : operandMnemonic m = some f) {rest w after : List Char} (hr : lineEnds rest = false)
    (ht : operandToken rest = (w, after)) {e : AsmError} (hx : parseOperand (m == "READ_REG") w = .error e) :
    parseCommand m rest = .error e := by
  simp only [parseCommand, hb, hm, hr, ht, hx, Bool.false_eq_true, if_false]

theorem parseCommand_operand_missing {m : String} {f : Byte → Instr} (hb : bareMnemonic m = none)
    (hm : operandMnemonic m = some f) {rest : List Char} (hr : lineEnds rest = true) :
    parseCommand m rest = .error .missingOperand := by
  simp only [parseCommand, hb, hm, hr, if_true]

/-- A pseudo-instruction over a byte list (30_encoding.md R100). -/
theorem parseCommand_list {m : String} {f : List Byte → List Instr} (hb : bareMnemonic m = none)
    (ho : operandMnemonic m = none) (hm : listMnemonic m = some f) {rest : List Char} (hr : lineEnds rest = false)
    {d : List Byte} (hd : parseByteList rest = .ok d) : parseCommand m rest = .ok (f d) := by
  simp only [parseCommand, hb, ho, hm, hr, hd, Bool.false_eq_true, if_false]

/-! ## Numbers -/

/-- Digits are read from the left. -/
theorem digitsValue_append (base : Nat) (digit : Char → Option Nat) (acc : Nat) (xs ys : List Char) {n : Nat}
    (h : digitsValue base digit acc xs = some n) :
    digitsValue base digit acc (xs ++ ys) = digitsValue base digit n ys := by
  induction xs generalizing acc with
  | nil =>
    injection h with h
    exact h ▸ rfl
  | cons c cs ih =>
    simp only [List.cons_append, digitsValue] at h ⊢
    split at h
    · exact ih _ h
    · cases h

theorem decimalDigit_digitChar : ∀ d < 10, decimalDigit (Nat.digitChar d) = some d := by decide

theorem isWordChar_digitChar : ∀ d < 16, isWordChar (Nat.digitChar d) = true ∧ Nat.digitChar d ≠ ',' := by decide

/-- A decimal number has a first digit, and no digit of it ends a word or an item of a list. -/
theorem decimalText_chars (n : Nat) :
    decimalText n ≠ [] ∧ ∀ c ∈ decimalText n, isWordChar c = true ∧ c ≠ ',' ∧ decimalDigit c ≠ none := by
  refine ⟨Nat.toDigits_ne_nil, ?_⟩
  unfold decimalText
  induction n using Nat.strongRecOn with
  | ind n ih =>
    have hd : ∀ d < 10, isWordChar (Nat.digitChar d) = true ∧ Nat.digitChar d ≠ ',' ∧ decimalDigit (Nat.digitChar d) ≠ none := by
      decide
    by_cases hn : n < 10
    · rw [Nat.toDigits_of_lt_base hn]
      simpa using hd n hn
    · rw [Nat.toDigits_of_base_le (by omega) (by omega)]
      intro c hc
      rcases List.mem_append.mp hc with hc | hc
      · exact ih (n / 10) (by omega) c hc
      · rw [List.mem_singleton.mp hc]
        exact hd (n % 10) (by omega)

/-- The value of the decimal digits of a number is the number. -/
theorem digitsValue_decimalText (n : Nat) : digitsValue 10 decimalDigit 0 (decimalText n) = some n := by
  unfold decimalText
  induction n using Nat.strongRecOn with
  | ind n ih =>
    by_cases hn : n < 10
    · rw [Nat.toDigits_of_lt_base hn]
      simp [digitsValue, decimalDigit_digitChar n hn]
    · rw [Nat.toDigits_of_base_le (by omega) (by omega), digitsValue_append _ _ _ _ _ (ih (n / 10) (by omega))]
      simp [digitsValue, decimalDigit_digitChar (n % 10) (by omega)]
      omega

/-- A decimal number is read as that number, or refused above 255 (30_encoding.md R99). -/
theorem parseNumber_decimalText (n : Nat) : parseNumber (decimalText n) = byteValue (some n) := by
  obtain ⟨hne, hc⟩ := decimalText_chars n
  have hv := digitsValue_decimalText n
  unfold parseNumber
  split
  · exact absurd (by assumption) hne
  · rename_i ds h
    exact absurd (by decide) (hc 'x' (by rw [h]; simp)).2.2
  · rename_i c cs _ h
    rw [← h, hv]

theorem parseNumber_decimalText_byte (b : Byte) : parseNumber (decimalText b.toNat) = .ok b := by
  rw [parseNumber_decimalText]
  have h := b.isLt
  simp only [byteValue, if_pos (show b.toNat ≤ 255 by omega), BitVec.ofNat_toNat, BitVec.setWidth_eq]

theorem parseNumber_decimalText_above {n : Nat} (h : 255 < n) : parseNumber (decimalText n) = .error .valueAbove255 := by
  rw [parseNumber_decimalText]
  simp only [byteValue, if_neg (show ¬n ≤ 255 by omega)]

theorem hexDigit_digitChar : ∀ d < 16, hexDigit (Nat.digitChar d) = some d := by decide

theorem hexText_chars (b : Byte) : hexText b ≠ [] ∧ ∀ c ∈ hexText b, isWordChar c = true ∧ c ≠ ',' := by
  have h := b.isLt
  obtain ⟨hi, hi'⟩ := isWordChar_digitChar (b.toNat / 16) (by omega)
  obtain ⟨lo, lo'⟩ := isWordChar_digitChar (b.toNat % 16) (by omega)
  simp [hexText, hi, lo, hi', lo', show isWordChar '0' = true by decide, show isWordChar 'x' = true by decide]

theorem parseNumber_hexText (b : Byte) : parseNumber (hexText b) = .ok b := by
  have h := b.isLt
  have hv : 16 * (b.toNat / 16) + b.toNat % 16 = b.toNat := by omega
  simp only [parseNumber, hexText, List.length_cons, List.length_nil, digitsValue,
    hexDigit_digitChar (b.toNat / 16) (by omega), hexDigit_digitChar (b.toNat % 16) (by omega)]
  simp [byteValue, hv, show b.toNat ≤ 255 by omega]

/-- An operand that begins with a digit is read as a number. -/
theorem parseOperand_number (onReadReg : Bool) {c : Char} (h : decimalDigit c ≠ none) (cs : List Char) :
    parseOperand onReadReg (c :: cs) = parseNumber (c :: cs) := by
  have hq : c ≠ '\'' := by
    rintro rfl
    exact h rfl
  have hr : registerNumber (String.ofList (c :: cs)) = none := by
    unfold registerNumber
    split <;> first
      | rfl
      | (rename_i hs
         have hl := congrArg String.toList hs
         rw [String.toList_ofList] at hl
         exact absurd (by rw [(List.cons.inj hl).1]; decide) h)
  unfold parseOperand
  split
  · rename_i hcs
    exact absurd (List.cons.inj hcs).1 hq
  · rw [hr]

/-- A number is an operand token as it stands, whatever blank or comment follows. -/
theorem operandToken_word {w : List Char} (hw : ∀ c ∈ w, isWordChar c = true) (hq : w.head? ≠ some '\'') {rest : List Char}
    (hr : ∀ c, rest.head? = some c → isWordChar c = false) (hne : w ≠ []) : operandToken (w ++ rest) = (w, rest) := by
  obtain ⟨c, w, rfl⟩ := List.exists_cons_of_ne_nil hne
  have hc : c ≠ '\'' := fun h => hq (by simp [h])
  unfold operandToken
  split
  · rename_i h
    exact absurd (List.cons.inj h).1 hc
  · rw [List.takeWhile_append_of_pos hw, List.dropWhile_append_of_pos hw]
    cases rest with
    | nil => simp
    | cons d rest => simp [hr d rfl]

/-! ## Byte lists -/

/-- The pieces of a list: the first text, without a comma, and the pieces after its comma. -/
theorem splitCommas_append {t : List Char} (h : ∀ c ∈ t, c ≠ ',') (cs : List Char) :
    splitCommas t = [t] ∧ splitCommas (t ++ ',' :: cs) = t :: splitCommas cs := by
  have hne : ∀ cs, splitCommas cs ≠ [] := by
    intro cs
    induction cs with
    | nil => simp [splitCommas]
    | cons c cs ih =>
      unfold splitCommas
      split
      · contradiction
      · split <;> simp
  induction t with
  | nil =>
    refine ⟨rfl, ?_⟩
    obtain ⟨u, us, hu⟩ := List.exists_cons_of_ne_nil (hne cs)
    simp [splitCommas, hu]
  | cons c t ih =>
    obtain ⟨h1, h2⟩ := ih fun x hx => h x (by simp [hx])
    simp [splitCommas, h1, h2, h c (by simp)]

/-- Blanks before a text of word characters are cut. -/
theorem trimBlanks_word {w : List Char} (h : ∀ c ∈ w, isWordChar c = true) (n : Nat) :
    trimBlanks (List.replicate n ' ' ++ w) = w := by
  have hb : ∀ c ∈ w, isBlank c = false := fun c hc => isBlank_eq_false_of_isWordChar (h c hc)
  have hw : ∀ l : List Char, (∀ c ∈ l, isBlank c = false) → l.dropWhile isBlank = l := by
    intro l hl
    cases l with
    | nil => rfl
    | cons c l => simp [hl c (by simp)]
  unfold trimBlanks
  rw [List.dropWhile_append_of_pos (by simp [isBlank]), hw w hb, hw w.reverse (by simpa using hb), List.reverse_reverse]

/-- Numbers written with a comma between, and any blanks after it, are read as those numbers (30_encoding.md R100). -/
theorem parseNumbers_listText {write : Byte → List Char} (hc : ∀ b, ∀ c ∈ write b, isWordChar c = true ∧ c ≠ ',')
    (hv : ∀ b, parseNumber (write b) = .ok b) (n : Nat) (b : Byte) (d : List Byte) :
    parseNumbers (splitCommas (listText (',' :: List.replicate n ' ') write (b :: d))) = .ok (b :: d) := by
  have one : ∀ (k : Nat) (b : Byte) (d : List Byte), parseNumbers (splitCommas
      (List.replicate k ' ' ++ listText (',' :: List.replicate n ' ') write (b :: d))) = .ok (b :: d) := by
    intro k b d
    have hs : ∀ c ∈ List.replicate k ' ' ++ write b, c ≠ ',' := by
      intro c h
      rcases List.mem_append.mp h with h | h
      · rw [(List.mem_replicate.mp h).2]
        decide
      · exact (hc b c h).2
    have ht := trimBlanks_word (fun c h => (hc b c h).1) k
    induction d generalizing k b with
    | nil => simp [listText, (splitCommas_append hs []).1, parseNumbers, ht, hv]
    | cons e d ih =>
      have hs' : ∀ c ∈ List.replicate n ' ' ++ write e, c ≠ ',' := by
        intro c h
        rcases List.mem_append.mp h with h | h
        · rw [(List.mem_replicate.mp h).2]
          decide
        · exact (hc e c h).2
      have hi := ih n e hs' (trimBlanks_word (fun c h => (hc e c h).1) n)
      have hl : List.replicate k ' ' ++ listText (',' :: List.replicate n ' ') write (b :: e :: d)
          = (List.replicate k ' ' ++ write b)
            ++ ',' :: (List.replicate n ' ' ++ listText (',' :: List.replicate n ' ') write (e :: d)) := by
        simp [listText]
      rw [hl, (splitCommas_append hs _).2]
      simp only [parseNumbers, ht, hv, hi]
  simpa using one 0 b d

/-- A text that begins with no double quote and holds no comment is read as comma-separated numbers. -/
theorem parseByteList_numbers {cs : List Char} (hq : cs.head? ≠ some '"') (hs : ∀ c ∈ cs, (c != ';') = true) :
    parseByteList cs = parseNumbers (splitCommas cs) := by
  unfold parseByteList
  split
  · exact absurd rfl hq
  · rw [List.takeWhile_eq_self_iff.mpr hs]

/-- A quoted string is read as the codes of its characters (30_encoding.md R100). -/
theorem parseByteList_string {cs : List Char} (h : ∀ c ∈ cs, c.toNat < 128 ∧ c ≠ '"') :
    parseByteList ('"' :: cs ++ ['"']) = .ok (cs.map fun c => BitVec.ofNat 8 c.toNat) := by
  have hq : ∀ c ∈ cs, (c != '"') = true := fun c hc => by simpa using (h c hc).2
  have ht : (cs ++ ['"']).takeWhile (· != '"') = cs := by
    rw [List.takeWhile_append_of_pos hq]
    simp
  have hd : (cs ++ ['"']).dropWhile (· != '"') = ['"'] := by
    rw [List.dropWhile_append_of_pos hq]
    simp
  have ha : cs.all (fun c => decide (c.toNat < 128)) = true := by
    rw [List.all_eq_true]
    exact fun c hc => by simpa using (h c hc).1
  simp only [parseByteList, List.cons_append, ht, hd, ha]
  rfl

end Sys2Proof.Machine
end

