-- ==== Sys2Proof/Laws/Memory.lean ====
section
/-! SUPPORT. The frame buffer: read after write, and every operation keeps the canonical form. -/

namespace Sys2Proof.Machine

/-! ## Read after write -/

theorem Memory.byteAt_store (m : Memory) (a k : Nat) (b : Byte) :
    (m.store a b).byteAt k = if k = a then some b else m.byteAt k := by
  induction m with
  | nil => simp only [Memory.store, Memory.byteAt]
  | cons c m ih =>
    unfold Memory.store
    split
    · simp only [Memory.byteAt]
    · split
      · rename_i h
        simp only [Memory.byteAt, h]
        split <;> rfl
      · rename_i h
        simp only [Memory.byteAt, ih]
        by_cases hk : k = c.1
        · have : k ≠ a := by omega
          simp [hk, show c.1 ≠ a by omega]
        · simp [hk]

@[simp] theorem Memory.byteAt_store_same (m : Memory) (a : Nat) (b : Byte) :
    (m.store a b).byteAt a = some b := by
  simp [Memory.byteAt_store]

theorem Memory.byteAt_store_other (m : Memory) {a k : Nat} (b : Byte) (h : k ≠ a) :
    (m.store a b).byteAt k = m.byteAt k := by
  simp [Memory.byteAt_store, h]

/-- Consecutive stores write the listed bytes from `a` on and nothing else. -/
theorem Memory.byteAt_storeList (bs : List Byte) (m : Memory) (a k : Nat) :
    (m.storeList a bs).byteAt k =
      if a ≤ k ∧ k < a + bs.length then bs[k - a]? else m.byteAt k := by
  induction bs generalizing m a with
  | nil => simp [Memory.storeList]
  | cons b bs ih =>
    rw [Memory.storeList, ih, Memory.byteAt_store]
    simp only [List.length_cons]
    by_cases h1 : k = a
    · subst h1; simp
    · by_cases h2 : a + 1 ≤ k ∧ k < a + 1 + bs.length
      · rw [if_pos h2, if_pos (by omega), show k - a = (k - (a + 1)) + 1 by omega,
          List.getElem?_cons_succ]
      · rw [if_neg h2, if_neg h1, if_neg (by omega)]

theorem Memory.byteAt_storeList_replicate (n : Nat) (b : Byte) (m : Memory) (a k : Nat) :
    (m.storeList a (List.replicate n b)).byteAt k =
      if a ≤ k ∧ k < a + n then some b else m.byteAt k := by
  rw [Memory.byteAt_storeList]
  simp only [List.length_replicate]
  split
  · rw [List.getElem?_replicate_of_lt (by omega)]
  · rfl

/-! ## The canonical form -/

theorem Memory.mem_store {m : Memory} {a : Nat} {b : Byte} {c : Host.Cell} (h : c ∈ m.store a b) :
    c = (a, b) ∨ c ∈ m := by
  induction m with
  | nil => simpa [Memory.store] using h
  | cons d m ih =>
    unfold Memory.store at h
    split at h
    · simpa using h
    · split at h
      · rcases List.mem_cons.mp h with rfl | h
        · exact .inl rfl
        · exact .inr (List.mem_cons_of_mem _ h)
      · rcases List.mem_cons.mp h with rfl | h
        · exact .inr List.mem_cons_self
        · exact (ih h).imp id (List.mem_cons_of_mem _)

/-- A store at an index of the buffer keeps the canonical form. -/
theorem Memory.wf_store {m : Memory} (hm : m.wf) {a : Nat} (ha : a < 67) (b : Byte) :
    (m.store a b).wf := by
  obtain ⟨hs, hr⟩ := hm
  refine ⟨?_, fun c hc => ?_⟩
  · clear hr
    induction m with
    | nil => simp [Memory.store]
    | cons d m ih =>
      have hd := List.pairwise_cons.mp hs
      unfold Memory.store
      split
      · refine List.pairwise_cons.mpr ⟨fun c hc => ?_, hs⟩
        rcases List.mem_cons.mp hc with rfl | hc
        · assumption
        · have := hd.1 c hc; simp only; omega
      · split
        · refine List.pairwise_cons.mpr ⟨fun c hc => ?_, hd.2⟩
          have := hd.1 c hc; simp only; omega
        · refine List.pairwise_cons.mpr ⟨fun c hc => ?_, ih hd.2⟩
          rcases Memory.mem_store hc with rfl | hc
          · simp only; omega
          · exact hd.1 c hc
  · rcases Memory.mem_store hc with rfl | hc
    · exact ha
    · exact hr c hc

theorem Memory.wf_storeList {bs : List Byte} {m : Memory} (hm : m.wf) {a : Nat} (ha : a + bs.length ≤ 67) :
    (m.storeList a bs).wf := by
  induction bs generalizing m a with
  | nil => exact hm
  | cons b bs ih =>
    simp only [List.length_cons] at ha
    exact ih (Memory.wf_store hm (by omega) b) (by omega)

/-- A write that answers is the store, at an index of the buffer, and keeps the canonical form. -/
theorem writeFrameByte_ok {m m' : Memory} {a : Nat} {b : Byte} (h : writeFrameByte m a b = .ok m') :
    a < 67 ∧ m' = m.store a b ∧ (m.wf → m'.wf) := by
  unfold writeFrameByte Config.frameLen at h
  split at h
  · injection h with h
    subst h
    exact ⟨by assumption, rfl, fun hm => Memory.wf_store hm (by assumption) b⟩
  · injection h

/-- A read that answers gives the byte there, at an index of the buffer. -/
theorem readFrameByte_eq_ok {m : Memory} {a : Nat} {b : Byte} :
    readFrameByte m a = .ok b ↔ a < 67 ∧ m.byteAt a = some b := by
  unfold readFrameByte Config.frameLen
  split
  · split <;> simp_all
  · simp_all

/-- A read of several bytes answers exactly with the bytes at those indices. -/
theorem readFrameBytes_eq_ok {m : Memory} {n a : Nat} {bs : List Byte} :
    readFrameBytes m a n = .ok bs ↔
      bs.length = n ∧ ∀ k, k < n → a + k < 67 ∧ m.byteAt (a + k) = bs[k]? := by
  induction n generalizing a bs with
  | zero =>
    cases bs <;> simp [readFrameBytes]
  | succ n ih =>
    unfold readFrameBytes
    constructor
    · intro h
      split at h
      · injection h
      · rename_i b hb
        obtain ⟨ha, hb⟩ := readFrameByte_eq_ok.mp hb
        split at h
        · injection h
        · rename_i tl htl
          injection h with h
          subst h
          obtain ⟨hl, hk⟩ := ih.mp htl
          refine ⟨by simp [hl], fun k hkn => ?_⟩
          rcases k with _ | k
          · exact ⟨by omega, by simpa using hb⟩
          · have := hk k (by omega)
            rw [show a + (k + 1) = a + 1 + k by omega]
            exact ⟨this.1, by simpa using this.2⟩
    · rintro ⟨hl, hk⟩
      rcases bs with _ | ⟨b, tl⟩
      · simp at hl
      · have h0 := hk 0 (by omega)
        simp only [Nat.add_zero, List.getElem?_cons_zero] at h0
        have ht : readFrameBytes m (a + 1) n = .ok tl := by
          refine ih.mpr ⟨by simpa using hl, fun k hkn => ?_⟩
          have := hk (k + 1) (by omega)
          rw [show a + (k + 1) = a + 1 + k by omega] at this
          exact ⟨this.1, by simpa using this.2⟩
        rw [readFrameByte_eq_ok.mpr h0]
        simp only [ht]

/-- Written bytes can be read. -/
theorem readFrameBytes_of_written {m : Memory} {n a : Nat} (hn : a + n ≤ 67)
    (h : ∀ k < n, (m.byteAt (a + k)).isSome = true) : ∃ bs, readFrameBytes m a n = .ok bs := by
  induction n generalizing a with
  | zero => exact ⟨[], rfl⟩
  | succ n ih =>
    obtain ⟨b, hb⟩ := Option.isSome_iff_exists.mp (h 0 (by omega))
    obtain ⟨tl, htl⟩ := ih (a := a + 1) (by omega) (fun k hk => by
      have := h (k + 1) (by omega)
      rwa [show a + (k + 1) = a + 1 + k by omega] at this)
    refine ⟨b :: tl, ?_⟩
    unfold readFrameBytes
    rw [readFrameByte_eq_ok.mpr ⟨by omega, by simpa using hb⟩]
    simp only [htl]

end Sys2Proof.Machine
end

