-- ==== Sys2Proof/Laws/State.lean ====
section
/-! SUPPORT. One lemma per field per state update: giving a response, recording an error, rejecting, clearing the error
record. Each is true by rfl, or by rfl in both cases of the error record. -/

namespace Sys2Proof.Machine

/-! ## respond -/

@[simp] theorem respond_crcReg (v : Word) (s : State) : (respond v s).crcReg = s.crcReg := rfl

@[simp] theorem respond_crcOut (v : Word) (s : State) : (respond v s).crcOut = s.crcOut := rfl

@[simp] theorem respond_page (v : Word) (s : State) : (respond v s).page = s.page := rfl

@[simp] theorem respond_fill (v : Word) (s : State) : (respond v s).fill = s.fill := rfl

@[simp] theorem respond_frameValid (v : Word) (s : State) : (respond v s).frameValid = s.frameValid := rfl

@[simp] theorem respond_frameKind (v : Word) (s : State) : (respond v s).frameKind = s.frameKind := rfl

@[simp] theorem respond_exhausted (v : Word) (s : State) : (respond v s).exhausted = s.exhausted := rfl

@[simp] theorem respond_pmState (v : Word) (s : State) : (respond v s).pmState = s.pmState := rfl

@[simp] theorem respond_err (v : Word) (s : State) : (respond v s).err = s.err := rfl

@[simp] theorem respond_errCode (v : Word) (s : State) : (respond v s).errCode = s.errCode := rfl

@[simp] theorem respond_fbBuf (v : Word) (s : State) : (respond v s).fbBuf = s.fbBuf := rfl

@[simp] theorem respond_commands (v : Word) (s : State) : (respond v s).commands = s.commands := rfl

@[simp] theorem respond_responses (v : Word) (s : State) : (respond v s).responses = ⟨0, v⟩ :: s.responses := rfl

/-! ## clearErrorRecord -/

@[simp] theorem clearErrorRecord_crcReg (s : State) : (clearErrorRecord s).crcReg = s.crcReg := rfl

@[simp] theorem clearErrorRecord_crcOut (s : State) : (clearErrorRecord s).crcOut = s.crcOut := rfl

@[simp] theorem clearErrorRecord_page (s : State) : (clearErrorRecord s).page = s.page := rfl

@[simp] theorem clearErrorRecord_fill (s : State) : (clearErrorRecord s).fill = s.fill := rfl

@[simp] theorem clearErrorRecord_frameValid (s : State) : (clearErrorRecord s).frameValid = s.frameValid := rfl

@[simp] theorem clearErrorRecord_frameKind (s : State) : (clearErrorRecord s).frameKind = s.frameKind := rfl

@[simp] theorem clearErrorRecord_exhausted (s : State) : (clearErrorRecord s).exhausted = s.exhausted := rfl

@[simp] theorem clearErrorRecord_pmState (s : State) : (clearErrorRecord s).pmState = s.pmState := rfl

@[simp] theorem clearErrorRecord_err (s : State) : (clearErrorRecord s).err = false := rfl

@[simp] theorem clearErrorRecord_errCode (s : State) : (clearErrorRecord s).errCode = 0 := rfl

@[simp] theorem clearErrorRecord_fbBuf (s : State) : (clearErrorRecord s).fbBuf = s.fbBuf := rfl

@[simp] theorem clearErrorRecord_commands (s : State) : (clearErrorRecord s).commands = s.commands := rfl

@[simp] theorem clearErrorRecord_responses (s : State) : (clearErrorRecord s).responses = s.responses := rfl

/-! ## recordError -/

@[simp] theorem recordError_crcReg (e : ErrorName) (s : State) : (recordError e s).crcReg = s.crcReg := by
  unfold recordError; split <;> rfl

@[simp] theorem recordError_crcOut (e : ErrorName) (s : State) : (recordError e s).crcOut = s.crcOut := by
  unfold recordError; split <;> rfl

@[simp] theorem recordError_page (e : ErrorName) (s : State) : (recordError e s).page = s.page := by
  unfold recordError; split <;> rfl

@[simp] theorem recordError_fill (e : ErrorName) (s : State) : (recordError e s).fill = s.fill := by
  unfold recordError; split <;> rfl

@[simp] theorem recordError_frameValid (e : ErrorName) (s : State) : (recordError e s).frameValid = s.frameValid := by
  unfold recordError; split <;> rfl

@[simp] theorem recordError_frameKind (e : ErrorName) (s : State) : (recordError e s).frameKind = s.frameKind := by
  unfold recordError; split <;> rfl

@[simp] theorem recordError_exhausted (e : ErrorName) (s : State) : (recordError e s).exhausted = s.exhausted := by
  unfold recordError; split <;> rfl

@[simp] theorem recordError_pmState (e : ErrorName) (s : State) : (recordError e s).pmState = s.pmState := by
  unfold recordError; split <;> rfl

@[simp] theorem recordError_err (e : ErrorName) (s : State) : (recordError e s).err = true := by
  unfold recordError; split <;> simp_all

@[simp] theorem recordError_errCode (e : ErrorName) (s : State) :
    (recordError e s).errCode = if s.err then s.errCode else e.code := by
  unfold recordError; split <;> simp_all

@[simp] theorem recordError_fbBuf (e : ErrorName) (s : State) : (recordError e s).fbBuf = s.fbBuf := by
  unfold recordError; split <;> rfl

@[simp] theorem recordError_commands (e : ErrorName) (s : State) : (recordError e s).commands = s.commands := by
  unfold recordError; split <;> rfl

@[simp] theorem recordError_responses (e : ErrorName) (s : State) : (recordError e s).responses = s.responses := by
  unfold recordError; split <;> rfl

/-! ## reject -/

@[simp] theorem reject_crcReg (e : ErrorName) (s : State) : (reject e s).crcReg = s.crcReg := recordError_crcReg e s

@[simp] theorem reject_crcOut (e : ErrorName) (s : State) : (reject e s).crcOut = s.crcOut := recordError_crcOut e s

@[simp] theorem reject_page (e : ErrorName) (s : State) : (reject e s).page = s.page := recordError_page e s

@[simp] theorem reject_fill (e : ErrorName) (s : State) : (reject e s).fill = s.fill := recordError_fill e s

@[simp] theorem reject_frameValid (e : ErrorName) (s : State) : (reject e s).frameValid = s.frameValid := recordError_frameValid e s

@[simp] theorem reject_frameKind (e : ErrorName) (s : State) : (reject e s).frameKind = s.frameKind := recordError_frameKind e s

@[simp] theorem reject_exhausted (e : ErrorName) (s : State) : (reject e s).exhausted = s.exhausted := recordError_exhausted e s

@[simp] theorem reject_pmState (e : ErrorName) (s : State) : (reject e s).pmState = s.pmState := recordError_pmState e s

@[simp] theorem reject_err (e : ErrorName) (s : State) : (reject e s).err = true := recordError_err e s

@[simp] theorem reject_errCode (e : ErrorName) (s : State) :
    (reject e s).errCode = if s.err then s.errCode else e.code := recordError_errCode e s

@[simp] theorem reject_fbBuf (e : ErrorName) (s : State) : (reject e s).fbBuf = s.fbBuf := recordError_fbBuf e s

@[simp] theorem reject_commands (e : ErrorName) (s : State) : (reject e s).commands = s.commands := recordError_commands e s

@[simp] theorem reject_responses (e : ErrorName) (s : State) :
    (reject e s).responses = ⟨e.code, 0⟩ :: s.responses := rfl

/-- A reject is what the spec's reject rule describes, whole (60_exceptions.md R232, R233). -/
theorem reject_eq_afterReject (e : ErrorName) (s : State) : reject e s = Safety.afterReject e.code s := by
  unfold reject recordError Safety.afterReject
  cases h : s.err <;> simp_all

end Sys2Proof.Machine
end

