-- ==== Sys2Proof/Laws/FrameBuilder.lean ====
section
/-! SUPPORT. What frame completion and the frame-builder commands can do, said once (41_frame.md). -/

namespace Sys2Proof.Machine

/-! ## Frame completion -/

/-- The padded page, byte by byte: padding after the data, the page number in byte 0, the rest as it was. -/
theorem byteAt_paddedPage (s : State) (k : Nat) :
    (paddedPage s).byteAt k =
      if 1 + s.fill.toNat ≤ k ∧ k ≤ 64 then some 0xFF
      else if k = 0 then some s.page else s.fbBuf.byteAt k := by
  unfold paddedPage dataIndex Config.pageSize Config.padByte
  rw [Memory.byteAt_storeList_replicate, Memory.byteAt_store]
  by_cases h : 1 + s.fill.toNat ≤ k ∧ k ≤ 64
  · rw [if_pos h, if_pos (by omega)]
  · rw [if_neg h, if_neg (by omega)]

/-- The frame buffer after the CRC went in: the CRC low byte first, the rest as it was. -/
theorem byteAt_storeCrc (m : Memory) (c : Word) (k : Nat) :
    (storeCrc m c).byteAt k =
      if k = 66 then some (highByte c) else if k = 65 then some (lowByte c) else m.byteAt k := by
  unfold storeCrc
  rw [Memory.byteAt_store, Memory.byteAt_store]

theorem wf_paddedPage {s : State} (h : s.fbBuf.wf) : (paddedPage s).wf := by
  unfold paddedPage dataIndex Config.pageSize
  have h0 := Memory.wf_store h (a := 0) (by omega) s.page
  by_cases hf : s.fill.toNat ≤ 64
  · exact Memory.wf_storeList h0 (by simp only [List.length_replicate]; omega)
  · rw [show 64 - s.fill.toNat = 0 by omega]
    exact h0

theorem wf_storeCrc {m : Memory} (h : m.wf) (c : Word) : (storeCrc m c).wf :=
  Memory.wf_store (Memory.wf_store h (by omega) _) (by omega) _

/-- Everything completion does, when it answers. -/
theorem completeDataFrame_ok {s t : State} (h : completeDataFrame s = .ok t) :
    ∃ covered, readFrameBytes (paddedPage s) 0 65 = .ok covered ∧
      t = { s with
        fbBuf := storeCrc (paddedPage s) (crc16 covered)
        page := s.page + 1
        frameValid := true
        frameKind := .data } := by
  unfold completeDataFrame Config.coveredLen at h
  split at h
  · injection h
  · rename_i covered hc
    injection h with h
    exact ⟨covered, hc, h.symm⟩

/-- Completion answers when the page's data bytes have been written. -/
theorem completeDataFrame_total {s : State} (h : ∀ k < s.fill.toNat, (s.fbBuf.byteAt (1 + k)).isSome = true) :
    ∃ t, completeDataFrame s = .ok t := by
  obtain ⟨covered, hc⟩ := readFrameBytes_of_written (m := paddedPage s) (n := 65) (a := 0) (by omega)
    (fun k hk => by
      rw [Nat.zero_add, byteAt_paddedPage]
      split
      · rfl
      · split
        · rfl
        · have := h (k - 1) (by omega)
          rwa [show 1 + (k - 1) = k by omega] at this)
  exact ⟨_, by unfold completeDataFrame Config.coveredLen; rw [hc]⟩

/-- Completion leaves the 65 covered bytes as the padded page has them. -/
theorem completeDataFrame_byteAt {s t : State} (h : completeDataFrame s = .ok t) {k : Nat} (hk : k < 65) :
    t.fbBuf.byteAt k = (paddedPage s).byteAt k := by
  obtain ⟨c, -, rfl⟩ := completeDataFrame_ok h
  simp only [byteAt_storeCrc, show k ≠ 66 by omega, show k ≠ 65 by omega, if_false]

/-- After completion every byte of the buffer has been written. -/
theorem completeDataFrame_written {s t : State} (h : completeDataFrame s = .ok t) {k : Nat} (hk : k < 67) :
    (t.fbBuf.byteAt k).isSome = true := by
  by_cases h65 : k < 65
  · rw [completeDataFrame_byteAt h h65]
    obtain ⟨c, hc, -⟩ := completeDataFrame_ok h
    obtain ⟨hl, hb⟩ := readFrameBytes_eq_ok.mp hc
    have hk := (hb k h65).2
    rw [Nat.zero_add] at hk
    rw [hk, List.getElem?_eq_getElem (by omega)]
    rfl
  · obtain ⟨c, -, rfl⟩ := completeDataFrame_ok h
    simp only [byteAt_storeCrc]
    split
    · rfl
    · rw [if_pos (by omega)]
      rfl

/-- Completing and responding answers with the completed state and its bytes_read. -/
theorem completeAndRespond_next {s t : State} (h : completeAndRespond s = .next t) :
    ∃ u, completeDataFrame s = .ok u ∧ t = respond (zext16 u.fill) u := by
  unfold completeAndRespond at h
  split at h
  · injection h
  · rename_i u hu
    injection h with h
    exact ⟨u, hu, h.symm⟩

/-! ## The commands -/

/-- Everything FB_DATA can do when it answers (41_frame.md R151). -/
theorem execFbData_next {b : Byte} {s t : State} (h : execFbData b s = .next t) :
    (s.frameValid = true ∧ t = reject .framePending s)
    ∨ (s.frameValid = false ∧ s.exhausted = true ∧ t = reject .streamExhausted s)
    ∨ (s.frameValid = false ∧ s.exhausted = false ∧ dataIndex s < 67 ∧ s.fill + 1 ≠ 64 ∧
        t = respond (zext16 (s.fill + 1)) { s with fbBuf := s.fbBuf.store (dataIndex s) b, fill := s.fill + 1 })
    ∨ (s.frameValid = false ∧ s.exhausted = false ∧ dataIndex s < 67 ∧ s.fill + 1 = 64 ∧
        ∃ u, completeDataFrame { s with fbBuf := s.fbBuf.store (dataIndex s) b, fill := s.fill + 1 } = .ok u ∧
          t = respond (zext16 u.fill) u) := by
  unfold execFbData at h
  split at h
  · injection h with h
    exact .inl ⟨by assumption, h.symm⟩
  · rename_i hv
    have hv : s.frameValid = false := by simpa using hv
    split at h
    · injection h with h
      exact .inr (.inl ⟨hv, by assumption, h.symm⟩)
    · rename_i he
      have he : s.exhausted = false := by simpa using he
      split at h
      · injection h
      · rename_i m hm
        obtain ⟨ha, rfl, -⟩ := writeFrameByte_ok hm
        simp only at h
        split at h
        · exact .inr (.inr (.inr ⟨hv, he, ha, by assumption, completeAndRespond_next h⟩))
        · injection h with h
          exact .inr (.inr (.inl ⟨hv, he, ha, by assumption, h.symm⟩))

/-- Everything FB_END can do when it answers (41_frame.md R152). -/
theorem execFbEnd_next {s t : State} (h : execFbEnd s = .next t) :
    (s.frameValid = true ∧ t = reject .framePending s)
    ∨ (s.frameValid = false ∧ s.fill = 0 ∧ t = respond 0 { s with exhausted := true })
    ∨ (s.frameValid = false ∧ s.fill ≠ 0 ∧ ∃ u, completeDataFrame s = .ok u ∧ t = respond (zext16 u.fill) u) := by
  unfold execFbEnd at h
  split at h
  · injection h with h
    exact .inl ⟨by assumption, h.symm⟩
  · rename_i hv
    have hv : s.frameValid = false := by simpa using hv
    split at h
    · injection h with h
      exact .inr (.inl ⟨hv, by assumption, h.symm⟩)
    · exact .inr (.inr ⟨hv, by assumption, completeAndRespond_next h⟩)

/-- Everything FB_READ can do when it answers (41_frame.md R153). -/
theorem execFbRead_next {i : Nat} {s t : State} (h : execFbRead i s = .next t) :
    (66 < i ∧ t = reject .badIndex s)
    ∨ (i ≤ 66 ∧ s.frameValid = false ∧ t = reject .noFrame s)
    ∨ (i ≤ 66 ∧ s.frameValid = true ∧ ∃ b, s.fbBuf.byteAt i = some b ∧ t = respond (zext16 b) s) := by
  unfold execFbRead legalIndex at h
  split at h
  · injection h with h
    rename_i hi
    exact .inl ⟨by simpa using hi, h.symm⟩
  · rename_i hi
    have hi : i ≤ 66 := by simpa using hi
    split at h
    · injection h with h
      rename_i hv
      exact .inr (.inl ⟨hi, by simpa using hv, h.symm⟩)
    · rename_i hv
      split at h
      · injection h
      · rename_i b hb
        injection h with h
        exact .inr (.inr ⟨hi, by simpa using hv, b, (readFrameByte_eq_ok.mp hb).2, h.symm⟩)

/-- Everything FB_ACK can do (41_frame.md R154). -/
theorem execFbAck_next {s t : State} (h : execFbAck s = .next t) :
    (s.frameValid = false ∧ t = reject .noFrame s)
    ∨ (s.frameValid = true ∧ t = respond 0 { s with frameValid := false, frameKind := .data, fill := 0 }) := by
  unfold execFbAck at h
  split at h <;> rename_i hv <;> injection h with h
  · exact .inl ⟨by simpa using hv, h.symm⟩
  · exact .inr ⟨by simpa using hv, h.symm⟩

/-- Everything FB_SENTINEL can do (41_frame.md R155). -/
theorem execFbSentinel_next {s t : State} (h : execFbSentinel s = .next t) :
    (s.frameValid = true ∧ t = reject .framePending s)
    ∨ (s.frameValid = false ∧ s.fill ≠ 0 ∧ t = reject .pageOpen s)
    ∨ (s.frameValid = false ∧ s.fill = 0 ∧ t = respond 0 { s with
        fbBuf := s.fbBuf.storeList 0 (List.replicate 67 0xFF)
        frameValid := true
        frameKind := .sentinel }) := by
  unfold execFbSentinel Config.frameLen Config.sentinelByte at h
  split at h
  · injection h with h
    exact .inl ⟨by assumption, h.symm⟩
  · rename_i hv
    have hv : s.frameValid = false := by simpa using hv
    split at h <;> rename_i hf <;> injection h with h
    · exact .inr (.inl ⟨hv, hf, h.symm⟩)
    · exact .inr (.inr ⟨hv, by simpa using hf, h.symm⟩)

end Sys2Proof.Machine
end

