-- ==== Sys2Proof/Laws/Units.lean ====
section
/-! SUPPORT. What the commands of the CRC unit, the matcher and the control unit do, and what a step does with the
host's next command word, said once. -/

namespace Sys2Proof.Machine

/-! ## Control commands -/

/-- Everything READ_REG can do (43_control.md R212). -/
theorem execReadReg_next {r : Nat} {s t : State} (h : execReadReg r s = .next t) :
    (4 < r ∧ t = reject .badReg s) ∨ (r ≤ 4 ∧ ∃ v, readRegister s r = some v ∧ t = respond v s) := by
  unfold execReadReg at h
  split at h <;> injection h with h
  · rename_i hn
    refine .inl ⟨?_, h.symm⟩
    rcases r with _ | _ | _ | _ | _ | r
    · simp [readRegister] at hn
    · simp [readRegister] at hn
    · simp [readRegister] at hn
    · simp [readRegister] at hn
    · simp [readRegister] at hn
    · omega
  · rename_i v hv
    refine .inr ⟨?_, v, hv, h.symm⟩
    rcases r with _ | _ | _ | _ | _ | r
    · omega
    · omega
    · omega
    · omega
    · omega
    · simp [readRegister] at hv

/-! ## The matcher -/

/-- Everything the transition can do (42_match.md R190): restart on 'A', advance by the next marker byte, or fall to Idle. -/
theorem delta_cases (p : ConnectState) (b : Byte) :
    (b = 0x41 ∧ delta p b = .sawA)
    ∨ (b ≠ 0x41 ∧ p = .sawA ∧ b = 0x53 ∧ delta p b = .sawAS)
    ∨ (b ≠ 0x41 ∧ p = .sawAS ∧ b = 0x55 ∧ delta p b = .sawASU)
    ∨ (b ≠ 0x41 ∧ p = .sawASU ∧ b = 0x52 ∧ delta p b = .sawASUR)
    ∨ (b ≠ 0x41 ∧ p = .sawASUR ∧ b = 0x4F ∧ delta p b = .matched)
    ∨ (b ≠ 0x41 ∧ delta p b = .idle) := by
  unfold delta
  split_ifs <;> simp_all

/-! ## Decoding -/

theorem opField_commandWord (op x : Byte) : opField (commandWord op x) = op := by
  unfold opField commandWord
  rw [BitVec.extractLsb'_append_eq_of_le (by omega)]
  exact BitVec.extractLsb'_eq_self

theorem operandField_commandWord (op x : Byte) : operandField (commandWord op x) = x := by
  unfold operandField commandWord
  exact BitVec.extractLsb'_append_eq_right

/-- Every word is the word of its two fields. -/
theorem commandWord_fields (w : Word) : commandWord (opField w) (operandField w) = w := by
  unfold commandWord opField operandField
  apply BitVec.eq_of_getLsbD_eq
  intro k hk
  rw [BitVec.getLsbD_append]
  by_cases h : k < 8
  · simp [h]
  · simp only [h, BitVec.getLsbD_extractLsb', if_false, decide_false]
    rw [show 8 + (k - 8) = k by omega]
    simp only [Bool.and_eq_right_iff_imp, decide_eq_true_eq]
    intro _; omega

/-- A command without operand decodes on operand byte 0 alone. -/
theorem decodeBare_eq_ok {x : Byte} {i j : Instr} : decodeBare x i = .ok j ↔ x = 0 ∧ j = i := by
  unfold decodeBare
  split
  · rename_i h
    exact ⟨fun hj => ⟨h, (Except.ok.inj hj).symm⟩, fun hj => hj.2 ▸ rfl⟩
  · rename_i h
    exact ⟨fun hj => by injection hj, fun hj => absurd hj.1 h⟩

/-! ## A step -/

/-- Everything a step can do (20_memory.md R70): hold the state, run the decoded command, or reject the word. -/
theorem step_cases (s : State) :
    (s.commands = [] ∧ step s = .next s)
    ∨ (∃ w rest i, s.commands = w :: rest ∧ decode w = .ok i ∧ step s = exec i { s with commands := rest })
    ∨ (∃ w rest e, s.commands = w :: rest ∧ decode w = .error e ∧
        step s = .next (reject (decodeErrorName e) { s with commands := rest })) := by
  unfold step fetchCommand
  rcases hc : s.commands with _ | ⟨w, rest⟩
  · exact .inl ⟨rfl, rfl⟩
  · rcases hd : decode w with e | i
    · exact .inr (.inr ⟨w, rest, e, rfl, hd, by simp only [hd]⟩)
    · exact .inr (.inl ⟨w, rest, i, rfl, hd, by simp only [hd]⟩)

end Sys2Proof.Machine
end

