-- ==== Sys2Proof/Laws/PerInstr.lean ====
section
/-! SUPPORT. Statements about every command as syntax, one lemma per constructor of Instr. -/

namespace Sys2Proof.Laws

/-- The two fields of a command's word are its opcode and its operand byte (30_encoding.md R90, R93). -/
def EncodedFields.Statement (i : Instr) : Prop :=
  opField (encode i) = i.opcode ∧ operandField (encode i) = i.operandByte

theorem EncodedFields.reset : EncodedFields.Statement .reset :=
  ⟨Machine.opField_commandWord _ _, Machine.operandField_commandWord _ _⟩

theorem EncodedFields.clrErr : EncodedFields.Statement .clrErr :=
  ⟨Machine.opField_commandWord _ _, Machine.operandField_commandWord _ _⟩

theorem EncodedFields.readReg (r : Nat) : EncodedFields.Statement (.readReg r) :=
  ⟨Machine.opField_commandWord _ _, Machine.operandField_commandWord _ _⟩

theorem EncodedFields.crcClear : EncodedFields.Statement .crcClear :=
  ⟨Machine.opField_commandWord _ _, Machine.operandField_commandWord _ _⟩

theorem EncodedFields.crcByte (b : Byte) : EncodedFields.Statement (.crcByte b) :=
  ⟨Machine.opField_commandWord _ _, Machine.operandField_commandWord _ _⟩

theorem EncodedFields.crcFinish : EncodedFields.Statement .crcFinish :=
  ⟨Machine.opField_commandWord _ _, Machine.operandField_commandWord _ _⟩

theorem EncodedFields.fbData (b : Byte) : EncodedFields.Statement (.fbData b) :=
  ⟨Machine.opField_commandWord _ _, Machine.operandField_commandWord _ _⟩

theorem EncodedFields.fbEnd : EncodedFields.Statement .fbEnd :=
  ⟨Machine.opField_commandWord _ _, Machine.operandField_commandWord _ _⟩

theorem EncodedFields.fbRead (i : Nat) : EncodedFields.Statement (.fbRead i) :=
  ⟨Machine.opField_commandWord _ _, Machine.operandField_commandWord _ _⟩

theorem EncodedFields.fbAck : EncodedFields.Statement .fbAck :=
  ⟨Machine.opField_commandWord _ _, Machine.operandField_commandWord _ _⟩

theorem EncodedFields.fbSentinel : EncodedFields.Statement .fbSentinel :=
  ⟨Machine.opField_commandWord _ _, Machine.operandField_commandWord _ _⟩

theorem EncodedFields.pmFeed (b : Byte) : EncodedFields.Statement (.pmFeed b) :=
  ⟨Machine.opField_commandWord _ _, Machine.operandField_commandWord _ _⟩

theorem EncodedFields.pmClear : EncodedFields.Statement .pmClear :=
  ⟨Machine.opField_commandWord _ _, Machine.operandField_commandWord _ _⟩

end Sys2Proof.Laws
end

