-- ==== Sys2Proof/Laws/Runs.lean ====
section
/-! SUPPORT. Runs of commands, the host's command list, and the bit operations: the small lemmas the statements over
`execAll` and the CRC are proved with. -/

namespace Sys2Proof.Safety

open Sys2Proof.Machine

/-! ## withCommands -/

@[simp] theorem withCommands_commands (s : State) (ws : List Word) : (withCommands s ws).commands = ws := rfl

@[simp] theorem withCommands_crcReg (s : State) (ws : List Word) : (withCommands s ws).crcReg = s.crcReg := rfl

@[simp] theorem withCommands_crcOut (s : State) (ws : List Word) : (withCommands s ws).crcOut = s.crcOut := rfl

@[simp] theorem withCommands_page (s : State) (ws : List Word) : (withCommands s ws).page = s.page := rfl

@[simp] theorem withCommands_fill (s : State) (ws : List Word) : (withCommands s ws).fill = s.fill := rfl

@[simp] theorem withCommands_frameValid (s : State) (ws : List Word) : (withCommands s ws).frameValid = s.frameValid := rfl

@[simp] theorem withCommands_frameKind (s : State) (ws : List Word) : (withCommands s ws).frameKind = s.frameKind := rfl

@[simp] theorem withCommands_exhausted (s : State) (ws : List Word) : (withCommands s ws).exhausted = s.exhausted := rfl

@[simp] theorem withCommands_pmState (s : State) (ws : List Word) : (withCommands s ws).pmState = s.pmState := rfl

@[simp] theorem withCommands_err (s : State) (ws : List Word) : (withCommands s ws).err = s.err := rfl

@[simp] theorem withCommands_errCode (s : State) (ws : List Word) : (withCommands s ws).errCode = s.errCode := rfl

@[simp] theorem withCommands_fbBuf (s : State) (ws : List Word) : (withCommands s ws).fbBuf = s.fbBuf := rfl

@[simp] theorem withCommands_responses (s : State) (ws : List Word) : (withCommands s ws).responses = s.responses := rfl

/-! ## Runs -/

@[simp] theorem execAll_nil (s : State) : execAll [] s = .next s := rfl

theorem execAll_cons_next {i : Instr} {is : List Instr} {s t : State} (h : exec i s = .next t) :
    execAll (i :: is) s = execAll is t := by
  simp only [execAll, h]

/-- A run that answers is a first command that answers and a run of the rest. -/
theorem execAll_cons_eq_next {i : Instr} {is : List Instr} {s u : State} :
    execAll (i :: is) s = .next u ↔ ∃ t, exec i s = .next t ∧ execAll is t = .next u := by
  constructor
  · intro h
    unfold execAll at h
    split at h
    · exact ⟨_, by assumption, h⟩
    · cases h
    · cases h
  · rintro ⟨t, ht, hu⟩
    rw [execAll_cons_next ht, hu]

/-- A run of two parts goes through the state between them. -/
theorem execAll_append_of_next {is js : List Instr} {s t : State} (h : execAll is s = .next t) :
    execAll (is ++ js) s = execAll js t := by
  induction is generalizing s with
  | nil =>
    injection h with h
    exact h ▸ rfl
  | cons i is ih =>
    obtain ⟨u, hu, hr⟩ := execAll_cons_eq_next.mp h
    rw [List.cons_append, execAll_cons_next hu, ih hr]

/-! ## Bit operations -/

/-- Reflection of a byte, bit by bit (00_scope.md R19). -/
theorem getLsbD_reflect8 (b : Byte) {i : Nat} (h : i < 8) : (reflect8 b).getLsbD i = b.getLsbD (7 - i) := by
  unfold reflect8
  rw [BitVec.getLsbD_reverse, BitVec.getMsbD]
  simp [h]

/-- Reflection of a word, bit by bit (00_scope.md R19). -/
theorem getLsbD_reflect16 (v : Word) {i : Nat} (h : i < 16) : (reflect16 v).getLsbD i = v.getLsbD (15 - i) := by
  unfold reflect16
  rw [BitVec.getLsbD_reverse, BitVec.getMsbD]
  simp [h]

/-- Zero extension keeps the number (00_scope.md R18). -/
theorem toNat_zext16 {w : Nat} (v : BitVec w) (h : w ≤ 16) : (zext16 v).toNat = v.toNat := by
  unfold zext16
  rw [BitVec.toNat_setWidth]
  exact Nat.mod_eq_of_lt (Nat.lt_of_lt_of_le v.isLt (Nat.pow_le_pow_right (by omega) h))

end Sys2Proof.Safety
end

