-- ==== Sys2Proof/Tests/Slice0.lean ====
section
/-! SUPPORT. The model's own tests: well-formedness, decoding of words written out from the opcode map, one-step tests
whose expected results are the spec's vectors (95_test_vectors.md), and for each statement a state that meets its
hypotheses. -/

namespace Sys2Proof.Tests

open Sys2Proof.Machine Sys2Proof.Safety

/-! ## Helpers -/

/-- What a condition says of the state a command leaves; false where the command stops. -/
def after (i : Instr) (s : State) (p : State → Bool) : Bool :=
  match exec i s with
  | .next t => p t
  | .fault _ => false
  | .refused _ => false

/-- What a condition says of the state a step leaves. -/
def stepped (s : State) (p : State → Bool) : Bool :=
  match step s with
  | .next t => p t
  | .fault _ => false
  | .refused _ => false

/-- The newest response of a state is the given one. -/
def responded (code : BitVec 4) (value : Word) (s : State) : Bool :=
  s.responses.head? == some ⟨code, value⟩

/-- A page with `n` data bytes 0xAA. -/
def openPage (n : Nat) : State :=
  { State.reset with
    fill := BitVec.ofNat 7 n
    fbBuf := (List.range n).map fun k => (1 + k, 0xAA) }

/-- The frame of the bytes 01 02 03 as page 0 (95_test_vectors.md L1-2), held. -/
def heldData : State :=
  { State.reset with
    page := 1
    fill := 3
    frameValid := true
    fbBuf := (List.range 67).zip ([0x00, 0x01, 0x02, 0x03] ++ List.replicate 61 0xFF ++ [0x16, 0xB3]) }

/-- The sentinel frame, held. -/
def heldSentinel : State :=
  { State.reset with
    frameValid := true
    frameKind := .sentinel
    fbBuf := (List.range 67).map fun k => (k, 0xFF) }

/-- An ended stream, nothing held. -/
def ended : State := { State.reset with exhausted := true }

/-! ## Well-formedness -/

theorem test_wellFormed_refuses_register_256 : (Instr.readReg 256).wellFormed = false := by decide

theorem test_wellFormed_refuses_index_256 : (Instr.fbRead 256).wellFormed = false := by decide

theorem test_wellFormed_takes_every_byte :
    (Instr.readReg 255).wellFormed = true ∧ (Instr.fbRead 255).wellFormed = true := by decide

/-! ## Decoding: words written out from 30_encoding.md R93 -/

theorem test_decode_reset : decode 0b0000000100000000 = .ok .reset := by decide

theorem test_decode_clrErr : decode 0b0000001000000000 = .ok .clrErr := by decide

theorem test_decode_readReg : decode 0b0000001100000100 = .ok (.readReg 4) := by decide

theorem test_decode_crcClear : decode 0b0001000000000000 = .ok .crcClear := by decide

theorem test_decode_crcByte : decode 0b0001000100110001 = .ok (.crcByte 0x31) := by decide

theorem test_decode_crcFinish : decode 0b0001001000000000 = .ok .crcFinish := by decide

theorem test_decode_fbData : decode 0b0010000001010101 = .ok (.fbData 0x55) := by decide

theorem test_decode_fbEnd : decode 0b0010000100000000 = .ok .fbEnd := by decide

theorem test_decode_fbRead : decode 0b0010001001000010 = .ok (.fbRead 66) := by decide

theorem test_decode_fbAck : decode 0b0010001100000000 = .ok .fbAck := by decide

theorem test_decode_fbSentinel : decode 0b0010010000000000 = .ok .fbSentinel := by decide

theorem test_decode_pmFeed : decode 0b0011000001001111 = .ok (.pmFeed 0x4F) := by decide

theorem test_decode_pmClear : decode 0b0011000100000000 = .ok .pmClear := by decide

/-- The words of 95_test_vectors.md 2.5. -/
theorem test_decode_rejects :
    [0x0000, 0x0400, 0x13FF, 0x2500, 0x32AA, 0xFF00].map decode
      = List.replicate 6 (.error .illegalOpcode)
    ∧ [0x1001, 0x1201, 0x21FF, 0x2301, 0x2480, 0x3101].map decode
      = List.replicate 6 (.error .nonzeroOperand) := by decide

theorem test_decodeTableWord : decodeTableWord 16 0x1131 = some (.crcByte 0x31) ∧ decodeTableWord 16 0x1001 = none := by
  decide

theorem test_withFetchWord_runs_first :
    stepped (State.reset.withFetchWord 16 0x1131) (fun t => t.crcReg == 0x008C && t.commands == []) = true := by decide

/-! ## One step each (95_test_vectors.md 2.1 to 2.4) -/

theorem test_reset :
    after .reset { heldData with pmState := .matched, err := true, errCode := 3 } (fun t =>
      { t with fbBuf := [], responses := [] } == State.reset && t.fbBuf == heldData.fbBuf) = true := by decide +kernel

theorem test_clrErr :
    after .clrErr { State.reset with err := true, errCode := 3 } (fun t => !t.err && t.errCode == 0) = true := by decide

theorem test_readReg_status : after (.readReg 0) heldData (responded 0 0x0310) = true := by decide +kernel

theorem test_readReg_bad : after (.readReg 5) State.reset (fun t => responded 7 0 t && t.errCode == 7) = true := by decide

theorem test_crcClear_keeps_crcOut :
    after .crcClear { State.reset with crcReg := 0x0A25, crcOut := 0xBB3D } (fun t =>
      t.crcReg == 0 && t.crcOut == 0xBB3D && responded 0 0 t) = true := by decide

theorem test_crcByte_second_digit :
    after (.crcByte 0x32) { State.reset with crcReg := 0x008C } (responded 0 0x8C4C) = true := by decide

theorem test_crcByte_reduces :
    after (.crcByte 0x33) { State.reset with crcReg := 0x8C4C } (fun t => t.crcReg == 0xCFE7) = true := by decide

theorem test_crcFinish :
    after .crcFinish { State.reset with crcReg := 0x0A25 } (fun t =>
      t.crcOut == 0xBB3D && t.crcReg == 0x0A25 && responded 0 0xBB3D t) = true := by decide +kernel

theorem test_fbData_first :
    after (.fbData 0x01) State.reset (fun t =>
      t.fbBuf == [(1, 0x01)] && t.fill == 1 && responded 0 1 t) = true := by decide

theorem test_fbData_after_end :
    after (.fbData 0x77) ended (fun t => responded 4 0 t && t.err && t.errCode == 4) = true := by decide

theorem test_fbEnd_short_page :
    after .fbEnd { State.reset with fill := 3, fbBuf := [(1, 1), (2, 2), (3, 3)] } (fun t =>
      t.fbBuf == heldData.fbBuf && t.page == 1 && responded 0 3 t) = true := by decide +kernel

theorem test_fbEnd_empty : after .fbEnd State.reset (fun t => t.exhausted && t.page == 0 && responded 0 0 t) = true := by
  decide

theorem test_fbRead_crc_high : after (.fbRead 66) heldData (responded 0 0x00B3) = true := by decide +kernel

theorem test_fbRead_index_before_frame : after (.fbRead 70) State.reset (responded 6 0) = true := by decide

theorem test_fbAck :
    after .fbAck heldData (fun t => !t.frameValid && t.fill == 0 && t.page == 1 && responded 0 0 t) = true := by
  decide +kernel

theorem test_fbSentinel :
    after .fbSentinel State.reset (fun t =>
      t.fbBuf == heldSentinel.fbBuf && statusWord t == 0x0030 && t.page == 0) = true := by decide +kernel

theorem test_fbSentinel_page_open : after .fbSentinel (openPage 1) (responded 8 0) = true := by decide

theorem test_pmFeed_matches :
    after (.pmFeed 0x4F) { State.reset with pmState := .sawASUR } (fun t =>
      statusWord t == 0x000D && responded 0 5 t) = true := by decide

theorem test_pmFeed_restarts :
    after (.pmFeed 0x41) { State.reset with pmState := .matched } (fun t => t.pmState == .sawA) = true := by decide

theorem test_pmClear :
    after .pmClear { State.reset with pmState := .sawASU } (fun t => t.pmState == .idle && responded 0 0 t) = true := by
  decide

theorem test_step_rejects_word_zero :
    stepped (withCommands State.reset [0x0000]) (fun t => responded 1 0 t && t.errCode == 1) = true := by decide

/-- The two faults, in states no run reaches (log entries 4, 7). -/
theorem test_faults :
    exec (.fbData 0x00) { State.reset with fill := 66 } = .fault (.noSuchFrameByte 67)
    ∧ exec (.fbRead 5) { State.reset with frameValid := true } = .fault (.unwrittenFrameByte 5) := ⟨rfl, rfl⟩

/-! ## The CRC function and the assembler -/

theorem test_crc16_direct_check_value :
    crc16Direct [0x31, 0x32, 0x33, 0x34, 0x35, 0x36, 0x37, 0x38, 0x39] = 0xBB3D := by decide +kernel

theorem test_assemble_character : assembleLine "CRC_BYTE '1'" = .ok [0x1131] := by decide

theorem test_assemble_register_name : assembleLine "READ_REG CRC_OUT ; the last CRC" = .ok [0x0302] := by decide

theorem test_assemble_pseudo : assembleLine "CRC16 \"12\"" = .ok [0x1000, 0x1131, 0x1132, 0x1200] := by decide

theorem test_assemble_refuses :
    assembleLine "FB_DATA 256" = .error .valueAbove255 ∧ assembleLine "FB_DATA PAGE" = .error .regnameOutsideReadReg
    ∧ assembleLine "RESET 1" = .error .extraOperand ∧ assembleLine "FB_DATA" = .error .missingOperand := by decide

/-! ## Witnesses: states and operands that meet the hypotheses of the statements -/

theorem legal_heldData : Legal heldData := by decide +kernel

theorem legal_heldSentinel : Legal heldSentinel := by decide +kernel

theorem legal_ended : Legal ended := by decide

theorem legal_openPage_1 : Legal (openPage 1) := by decide

theorem legal_openPage_63 : Legal (openPage 63) := by decide +kernel

theorem sound_heldData : FrameSound heldData :=
  ⟨fun _ _ => ⟨by decide +kernel, by decide +kernel,
      [0x00, 0x01, 0x02, 0x03] ++ List.replicate 61 0xFF, by decide +kernel, by decide +kernel, by decide +kernel⟩,
    fun _ h => by cases h⟩

theorem sound_heldSentinel : FrameSound heldSentinel :=
  ⟨fun _ h => (by cases h), fun _ _ => by decide +kernel⟩

theorem witness_DecodeOfEncodeIsTheCommand : (Instr.fbRead 255).wellFormed = true := by decide

theorem witness_EncodeOfDecodeIsTheWord : decode 0x22FF = .ok (.fbRead 255) := by decide

/-- Each clause; both disjuncts of the last at the lowest and the highest opcode of each list. -/
theorem witness_DecodeChecksOpcodeThenOperand :
    (0x3200 : Word).toNat / 256 ∉ bareOpcodes ++ operandOpcodes
    ∧ ((0x3101 : Word).toNat / 256 ∈ bareOpcodes ∧ (0x3101 : Word).toNat % 256 ≠ 0)
    ∧ ((0x03FF : Word).toNat / 256 ∈ operandOpcodes ∧ (0x3000 : Word).toNat / 256 ∈ operandOpcodes)
    ∧ ((0x0100 : Word).toNat / 256 ∈ bareOpcodes ∧ (0x0100 : Word).toNat % 256 = 0)
    ∧ ((0x3100 : Word).toNat / 256 ∈ bareOpcodes ∧ (0x3100 : Word).toNat % 256 = 0) := by decide

/-- Both ends of each reserved range; the smallest and the largest nonzero operand. -/
theorem witness_ReservedWordsAreRejected :
    (∀ op ∈ [0x00, 0x04, 0x0F, 0x13, 0x1F, 0x25, 0x2F, 0x32, 0xFF],
      reservedOpcode ((BitVec.ofNat 16 (256 * op)).toNat / 256) = true)
    ∧ ((0x0101 : Word).toNat / 256 ∈ bareOpcodes ∧ (0x0101 : Word).toNat % 256 ≠ 0)
    ∧ ((0x31FF : Word).toNat / 256 ∈ bareOpcodes ∧ (0x31FF : Word).toNat % 256 ≠ 0) := by decide

/-- The first and last row of each table, the first and last printable character, and a line that gives words. -/
theorem witness_AssemblerWritesTheListedWords :
    ("RESET", 0x01) ∈ bareRows ∧ ("PM_CLEAR", 0x31) ∈ bareRows ∧ ("READ_REG", 0x03) ∈ operandRows
    ∧ ("PM_FEED", 0x30) ∈ operandRows ∧ (0x20 ≤ ' '.toNat ∧ ' '.toNat ≤ 0x7E) ∧ (0x20 ≤ '~'.toNat ∧ '~'.toNat ≤ 0x7E)
    ∧ assembleLine "FB_READ 255" = .ok [0x22FF] ∧ (0x22FF : Word) ∈ [(0x22FF : Word)] := by decide

theorem witness_AssemblerRefusesMalformedLines :
    ("CLR_ERR", 0x02) ∈ bareRows ∧ ("FB_READ", 0x22) ∈ operandRows ∧ 255 < 256 ∧ "FB_READ" ≠ "READ_REG"
    ∧ "ERR_CODE" ∈ ["STATUS", "CRC_REG", "CRC_OUT", "PAGE", "ERR_CODE"] := by decide

/-- One number, and a string with the lowest and the highest ASCII character. -/
theorem witness_PseudoInstructionsGiveTheirExpansion :
    [(0xFF : Byte)] ≠ []
    ∧ (Char.ofNat 0).toNat < 128 ∧ Char.ofNat 0 ≠ '"' ∧ (Char.ofNat 127).toNat < 128 ∧ Char.ofNat 127 ≠ '"' := by decide

theorem witness_StepRunsTheDecodedCommand :
    (withCommands State.reset [0x22FF, 0x0100]).commands = 0x22FF :: [0x0100] ∧ decode 0x22FF = .ok (.fbRead 255) := by
  decide

theorem witness_IdleStepHoldsTheState : State.reset.commands = [] := rfl

theorem witness_RunOfWordsExecutesTheCommands :
    ∀ i ∈ [Instr.readReg 255, .fbRead 255, .fbEnd], i.wellFormed = true := by decide

theorem witness_CrcIsLinearOverXor : [(0x01 : Byte), 0xFF].length = [(0x80 : Byte), 0x00].length := rfl

theorem witness_AppendedCrcLeavesZeroResidue :
    FrameSound heldData ∧ heldData.frameValid = true ∧ heldData.frameKind = .data := ⟨sound_heldData, rfl, rfl⟩

/-- With commands of both other units, and a reject, between. -/
theorem witness_ClearFeedFinishComputesTheCrc :
    Legal State.reset ∧ .reset ∉ [Instr.fbAck, .crcClear, .fbData 0x01, .crcByte 0xFF, .pmFeed 0x41]
    ∧ [Instr.fbAck, .crcClear, .fbData 0x01, .crcByte 0xFF, .pmFeed 0x41].filter isCrcUnit
      = .crcClear :: crcBytes [0xFF] := by decide

theorem witness_CrcCommandsLeaveTheRest :
    after .crcClear State.reset (fun _ => true) = true ∧ after (.crcByte 0xFF) State.reset (fun _ => true) = true
    ∧ after .crcFinish State.reset (fun _ => true) = true := by decide +kernel

/-- Each clause: a frame held, the stream ended, the first and the last open page position, the 64th byte. -/
theorem witness_FbDataPushesOneByte :
    heldData.frameValid = true
    ∧ (ended.frameValid = false ∧ ended.exhausted = true)
    ∧ (State.reset.frameValid = false ∧ State.reset.exhausted = false ∧ State.reset.fill.toNat < 63)
    ∧ ((openPage 62).frameValid = false ∧ (openPage 62).exhausted = false ∧ (openPage 62).fill.toNat = 62)
    ∧ (Legal (openPage 63) ∧ (openPage 63).frameValid = false ∧ (openPage 63).exhausted = false
        ∧ (openPage 63).fill.toNat = 63) :=
  ⟨rfl, ⟨rfl, rfl⟩, by decide, by decide, legal_openPage_63, rfl, rfl, rfl⟩

/-- Each clause: a frame held, an empty page, a page of one byte and of 63. -/
theorem witness_FbEndEndsTheStream :
    heldSentinel.frameValid = true
    ∧ (State.reset.frameValid = false ∧ State.reset.fill.toNat = 0)
    ∧ (Legal (openPage 1) ∧ (openPage 1).frameValid = false ∧ 1 ≤ (openPage 1).fill.toNat)
    ∧ (Legal (openPage 63) ∧ (openPage 63).frameValid = false ∧ 1 ≤ (openPage 63).fill.toNat) :=
  ⟨rfl, ⟨rfl, rfl⟩, ⟨legal_openPage_1, rfl, by decide⟩, legal_openPage_63, rfl, by decide⟩

/-- Each clause: the first and the last index out of range, the last one in range without and with a frame. -/
theorem witness_FbReadReadsOneByte :
    (66 < 67 ∧ 67 < 256) ∧ (66 < 255 ∧ 255 < 256) ∧ (66 ≤ 66 ∧ State.reset.frameValid = false) ∧ (66 ≤ 66 ∧ heldData.frameValid = true ∧ Legal heldData) :=
  ⟨by decide, by decide, ⟨by decide, rfl⟩, by decide, rfl, legal_heldData⟩

theorem witness_FbAckReleasesTheFrame : State.reset.frameValid = false ∧ heldSentinel.frameValid = true := ⟨rfl, rfl⟩

theorem witness_FbSentinelLoadsAllOnes :
    heldData.frameValid = true
    ∧ ((openPage 1).frameValid = false ∧ (openPage 1).fill.toNat ≠ 0)
    ∧ (ended.frameValid = false ∧ ended.fill.toNat = 0) := by decide

/-- Every clause of the three commands: rejected, open page at both ends, completing, exhausting. -/
theorem witness_StoringCommandsLeaveTheRest :
    after (.fbData 0x55) heldData (fun _ => heldData.frameValid) = true
    ∧ after (.fbData 0x55) ended (fun _ => ended.exhausted) = true
    ∧ after (.fbData 0x55) (openPage 62) (fun t => t.fill == 63) = true
    ∧ after (.fbData 0x55) (openPage 63) (fun t => t.fill == 64 && t.frameValid) = true
    ∧ after .fbEnd heldData (fun _ => heldData.frameValid) = true
    ∧ after .fbEnd State.reset (fun t => t.exhausted) = true
    ∧ after .fbEnd (openPage 1) (fun t => t.frameValid) = true
    ∧ after .fbSentinel heldData (fun _ => heldData.frameValid) = true
    ∧ after .fbSentinel (openPage 1) (fun t => t.err) = true
    ∧ after .fbSentinel State.reset (fun t => t.frameValid) = true := by decide +kernel

theorem witness_NonStoringFrameCommandsLeaveTheRest :
    after (.fbRead 66) heldData (fun _ => heldData.frameValid) = true
    ∧ after (.fbRead 67) heldData (fun t => t.err) = true
    ∧ after .fbAck heldData (fun _ => heldData.frameValid) = true
    ∧ after .fbAck State.reset (fun _ => !State.reset.frameValid) = true := by decide +kernel

/-- The hypotheses on the state, and data of lengths 0, 1, 63 and 64. -/
theorem witness_PageOfBytesBecomesTheWireFrame :
    Legal State.reset ∧ State.reset.frameValid = false ∧ State.reset.exhausted = false ∧ State.reset.fill.toNat = 0
    ∧ ∀ n ∈ [0, 1, 63, 64], (List.replicate n (0x5A : Byte)).length = n ∧ n ≤ 64 := by decide

theorem witness_OnlyFillTellsPaddingFromInput :
    Legal State.reset ∧ State.reset.frameValid = false ∧ State.reset.exhausted = false ∧ State.reset.fill.toNat = 0
    ∧ ∀ n ∈ [1, 63], 1 ≤ (List.replicate n (0xFF : Byte)).length ∧ (List.replicate n (0xFF : Byte)).length < 64 := by
  decide

/-- Both clauses: the command that completes the first frame, and one that completes none. -/
theorem witness_DataFramesCarryConsecutivePageNumbers :
    State.reset.page = 0 ∧ .reset ∉ [Instr.fbData 0xAB]
    ∧ execAll [.fbData 0xAB] State.reset
      = .next { State.reset with fill := 1, fbBuf := [(1, 0xAB)], responses := [⟨0, 1⟩] }
    ∧ after .fbEnd { State.reset with fill := 1, fbBuf := [(1, 0xAB)] } (fun t =>
        t.frameValid && decide (t.frameKind = .data)) = true
    ∧ after .fbAck { State.reset with fill := 1, fbBuf := [(1, 0xAB)] } (fun t => !t.frameValid) = true :=
  ⟨rfl, by decide, rfl, by decide +kernel, by decide⟩

theorem witness_StepKeepsHeldFramesSound :
    FrameSound (withCommands heldData [0x2242]) ∧ stepped (withCommands heldData [0x2242]) (·.frameValid) = true :=
  ⟨sound_heldData, by decide +kernel⟩

theorem witness_ExhaustionLastsUntilReset :
    (Legal (openPage 1) ∧ (openPage 1).frameValid = false ∧ 1 ≤ (openPage 1).fill.toNat)
    ∧ (Legal ended ∧ ended.exhausted = true ∧ .reset ∉ [Instr.fbSentinel, .fbAck]) :=
  ⟨⟨legal_openPage_1, rfl, by decide⟩, legal_ended, rfl, by decide⟩

theorem witness_TransitionTable : (0x61 : Byte) ∉ [(0x41 : Byte), 0x53, 0x55, 0x52, 0x4F] := by decide

theorem witness_PmFeedAdvancesTheMatcher : (0x4F : Byte) ≠ 0x41 := by decide

theorem witness_MatcherCommandsLeaveTheRest :
    after (.pmFeed 0x41) State.reset (fun _ => true) = true ∧ after .pmClear State.reset (fun _ => true) = true := by
  decide

/-- A run that matches, with another unit's command between, and a prefix of every length 0 to 5. -/
theorem witness_MatcherTracksTheLongestMarkerPrefix :
    Legal State.reset ∧ State.reset.pmState = .idle
    ∧ .pmClear ∉ [Instr.pmFeed 0x41, .pmFeed 0x53, .fbAck, .pmFeed 0x55, .pmFeed 0x52, .pmFeed 0x4F]
    ∧ .reset ∉ [Instr.pmFeed 0x41, .pmFeed 0x53, .fbAck, .pmFeed 0x55, .pmFeed 0x52, .pmFeed 0x4F]
    ∧ ∀ j ≤ 5, Config.marker.take j <:+ Config.marker.take j := ⟨by decide, rfl, by decide, by decide, fun _ _ => List.suffix_refl _⟩

theorem witness_ReadRegReadsOneRegister : (4 < 5 ∧ 5 < 256) ∧ (4 < 255 ∧ 255 < 256) := by decide

theorem witness_NumbersBeyondAByteAreRejected : 256 ≤ 256 := by decide

theorem witness_ControlCommandsLeaveTheRest :
    after .clrErr State.reset (fun _ => true) = true ∧ after (.readReg 4) State.reset (fun _ => true) = true
    ∧ after (.readReg 5) State.reset (fun _ => true) = true ∧ after .reset heldData (fun _ => true) = true := by
  decide +kernel

theorem witness_RejectChangesOnlyTheErrorRecord :
    stepped (withCommands State.reset [0x1001]) (fun t => responded 2 0 t) = true := by decide

/-- Each clause: an error recorded already, a first reject, an accepted command. -/
theorem witness_ErrorRecordKeepsTheFirstError :
    stepped (withCommands { State.reset with err := true, errCode := 5 } [0x2246]) (responded 6 0) = true
    ∧ stepped (withCommands State.reset [0x2300]) (responded 5 0) = true
    ∧ stepped (withCommands State.reset [0x1000]) (responded 0 0) = true
    ∧ decode 0x2246 = .ok (.fbRead 70) ∧ decode 0x2300 = .ok .fbAck ∧ decode 0x1000 = .ok .crcClear := by decide

theorem witness_ResponseCodeFollowsTheAcceptanceTable : Legal heldData ∧ Legal ended := ⟨legal_heldData, legal_ended⟩

theorem witness_EveryCommandGivesOneResponse :
    stepped (withCommands State.reset [0x0000]) (responded 1 0) = true
    ∧ after (.fbData 0x55) (openPage 63) (responded 0 64) = true ∧ Legal (openPage 63) :=
  ⟨by decide, by decide +kernel, legal_openPage_63⟩

theorem witness_LegalStatesNeverStop : Legal (withCommands heldSentinel [0x2055]) := legal_heldSentinel

theorem witness_StepKeepsStatesLegal :
    Legal (withCommands (openPage 63) [0x2055])
    ∧ stepped (withCommands (openPage 63) [0x2055]) (fun t => t.frameValid && t.fill == 64) = true :=
  ⟨legal_openPage_63, by decide +kernel⟩

/-- Each register changes somewhere, a reject and a successful read happen. -/
theorem witness_RegistersChangeOnlyByTheirCommands :
    after (.crcByte 0x01) State.reset (fun t => t.crcReg != 0) = true
    ∧ after .crcFinish { State.reset with crcReg := 1 } (fun t => t.crcOut != 0) = true
    ∧ after .fbEnd (openPage 1) (fun t => t.page != 0 && t.frameValid && t.fbBuf != (openPage 1).fbBuf) = true
    ∧ after (.fbData 0x01) State.reset (fun t => t.fill != 0) = true
    ∧ after .fbSentinel State.reset (fun t => t.frameKind != .data) = true
    ∧ after .fbEnd State.reset (fun t => t.exhausted) = true
    ∧ after (.pmFeed 0x41) State.reset (fun t => t.pmState != .idle) = true
    ∧ after .fbAck State.reset (fun t => t.err && responded 5 0 t) = true
    ∧ after (.fbRead 0) heldSentinel (responded 0 0x00FF) = true
    ∧ decode 0x1001 = .error .nonzeroOperand ∧ decode 0xFFFF = .error .illegalOpcode := by decide +kernel

/-- A held frame seen through its own buffer, and an open page whose unseen bytes differ. -/
theorem witness_UnwrittenBufferIsUnobservable :
    (Legal heldData ∧ SameView heldData heldData.fbBuf)
    ∧ (Legal (openPage 1) ∧ SameView (openPage 1) [(0, 0x12), (1, 0xAA), (66, 0x34)]) :=
  ⟨⟨legal_heldData, legal_heldData.2.1, fun _ _ _ => rfl, fun h => by cases h⟩,
    legal_openPage_1, by decide, fun h => (by cases h), fun _ => by decide⟩

theorem witness_CrcUnitIsIndependentOfTheOthers :
    isCrcUnit (.readReg 0) = false ∧ Instr.readReg 0 ≠ .reset ∧ Instr.readReg 0 ≠ .readReg 1
    ∧ Instr.readReg 0 ≠ .readReg 2 := by decide

end Sys2Proof.Tests
end

section
/-! PROOFS. Steps of the machine (00_scope.md R21, 20_memory.md R70). -/

namespace Sys2Proof.Proofs

open Sys2Proof.Machine Sys2Proof.Safety

/-- Settles O7, by the three cases of a step: with a word issued that decodes, neither the idle step nor the reject of
the word can be the one taken. -/
theorem stepRunsTheDecodedCommand : Obligations.StepRunsTheDecodedCommand := by
  intro s w rest i hcommands hdecode
  obtain ⟨hidle, -⟩ | ⟨w', rest', i', hcons, hok, hstep⟩ | ⟨w', rest', e, hcons, herror, -⟩ := step_cases s
  case inl => simp [hidle] at hcommands
  case inr.inl =>
    obtain ⟨rfl, rfl⟩ := List.cons.inj (hcommands.symm.trans hcons)
    obtain rfl := Except.ok.inj (hdecode.symm.trans hok)
    exact hstep
  case inr.inr =>
    obtain ⟨rfl, rfl⟩ := List.cons.inj (hcommands.symm.trans hcons)
    cases hdecode.symm.trans herror

end Sys2Proof.Proofs
end

section
/-! PROOFS. Everything a command can do when it answers: it is rejected, or it gives its response to one of the accepted
effects listed here once. -/

namespace Sys2Proof.Proofs

open Sys2Proof.Machine Sys2Proof.Safety

/-! ## The accepted effects -/

/-- The page with one more data byte, before the check for completion (41_frame.md R151). -/
def pushByte (b : Byte) (s : State) : State :=
  { s with fbBuf := s.fbBuf.store (dataIndex s) b, fill := s.fill + 1 }

/-- The page completed to a data frame whose CRC covers `covered` (41_frame.md R150). -/
def completedFrame (s : State) (covered : List Byte) : State :=
  { s with
    fbBuf := storeCrc (paddedPage s) (crc16 covered)
    page := s.page + 1
    frameValid := true
    frameKind := .data }

/-- The sentinel frame loaded into the buffer (41_frame.md R155). -/
def loadedSentinel (s : State) : State :=
  { s with
    fbBuf := s.fbBuf.storeList 0 (List.replicate 67 0xFF)
    frameValid := true
    frameKind := .sentinel }

/-- `Accepts i s u`: the command `i`, accepted in `s`, takes the registers and the buffer to those of `u`; its response
is still to be given. -/
inductive Accepts : Instr → State → State → Prop
  /-- RESET (43_control.md R210). -/
  | reset {s : State} : Accepts .reset s
      { State.reset with fbBuf := s.fbBuf, commands := s.commands, responses := s.responses }
  /-- CLR_ERR (43_control.md R211). -/
  | clrErr {s : State} : Accepts .clrErr s (clearErrorRecord s)
  /-- READ_REG (43_control.md R212). -/
  | readReg {s : State} {r : Nat} : r ≤ 4 → Accepts (.readReg r) s s
  /-- CRC_CLEAR (40_crc.md R127). -/
  | crcClear {s : State} : Accepts .crcClear s { s with crcReg := Config.crcInit }
  /-- CRC_BYTE (40_crc.md R128). -/
  | crcByte {s : State} {b : Byte} : Accepts (.crcByte b) s { s with crcReg := Machine.crcByte s.crcReg b }
  /-- CRC_FINISH (40_crc.md R129). -/
  | crcFinish {s : State} : Accepts .crcFinish s { s with crcOut := Machine.crcFinish s.crcReg }
  /-- FB_DATA on a page that stays open (41_frame.md R151). -/
  | fbDataOpen {s : State} {b : Byte} : s.frameValid = false → s.exhausted = false → dataIndex s < 67 →
      s.fill + 1 ≠ 64 → Accepts (.fbData b) s (pushByte b s)
  /-- FB_DATA with the byte that completes the page (41_frame.md R151). -/
  | fbDataFull {s : State} {b : Byte} {covered : List Byte} : s.frameValid = false → s.exhausted = false →
      dataIndex s < 67 → s.fill + 1 = 64 →
      completeDataFrame (pushByte b s) = .ok (completedFrame (pushByte b s) covered) →
      Accepts (.fbData b) s (completedFrame (pushByte b s) covered)
  /-- FB_END on an empty page (41_frame.md R152). -/
  | fbEndEmpty {s : State} : s.frameValid = false → s.fill = 0 → Accepts .fbEnd s { s with exhausted := true }
  /-- FB_END on an open page (41_frame.md R152). -/
  | fbEndOpen {s : State} {covered : List Byte} : s.frameValid = false → s.fill ≠ 0 →
      completeDataFrame s = .ok (completedFrame s covered) → Accepts .fbEnd s (completedFrame s covered)
  /-- FB_READ (41_frame.md R153). -/
  | fbRead {s : State} {k : Nat} : k ≤ 66 → s.frameValid = true → Accepts (.fbRead k) s s
  /-- FB_ACK (41_frame.md R154). -/
  | fbAck {s : State} : s.frameValid = true →
      Accepts .fbAck s { s with frameValid := false, frameKind := .data, fill := 0 }
  /-- FB_SENTINEL (41_frame.md R155). -/
  | fbSentinel {s : State} : s.frameValid = false → s.fill = 0 → Accepts .fbSentinel s (loadedSentinel s)
  /-- PM_FEED (42_match.md R191). -/
  | pmFeed {s : State} {b : Byte} : Accepts (.pmFeed b) s { s with pmState := delta s.pmState b }
  /-- PM_CLEAR (42_match.md R192). -/
  | pmClear {s : State} : Accepts .pmClear s { s with pmState := .idle }

/-- Completion, when it answers, gives a completed frame. -/
theorem completeDataFrame_eq_completedFrame {s u : State} (h : completeDataFrame s = .ok u) :
    ∃ covered, u = completedFrame s covered := by
  obtain ⟨covered, -, hu⟩ := completeDataFrame_ok h
  exact ⟨covered, hu⟩

/-- Everything a command can do when it answers: it is rejected, or it responds to one of the accepted effects. -/
theorem exec_next {i : Instr} {s t : State} (h : exec i s = .next t) :
    (∃ e, t = reject e s) ∨ ∃ v u, Accepts i s u ∧ t = respond v u := by
  cases i with
  | reset => exact .inr ⟨_, _, .reset, (Host.Outcome.next.inj h).symm⟩
  | clrErr => exact .inr ⟨_, _, .clrErr, (Host.Outcome.next.inj h).symm⟩
  | readReg r =>
    obtain ⟨-, rfl⟩ | ⟨hr, v, -, rfl⟩ := execReadReg_next h
    · exact .inl ⟨_, rfl⟩
    · exact .inr ⟨_, _, .readReg hr, rfl⟩
  | crcClear => exact .inr ⟨_, _, .crcClear, (Host.Outcome.next.inj h).symm⟩
  | crcByte b => exact .inr ⟨_, _, .crcByte, (Host.Outcome.next.inj h).symm⟩
  | crcFinish => exact .inr ⟨_, _, .crcFinish, (Host.Outcome.next.inj h).symm⟩
  | fbData b =>
    obtain ⟨-, rfl⟩ | ⟨-, -, rfl⟩ | ⟨hv, he, hi, hf, rfl⟩ | ⟨hv, he, hi, hf, u, hu, rfl⟩ := execFbData_next h
    · exact .inl ⟨_, rfl⟩
    · exact .inl ⟨_, rfl⟩
    · exact .inr ⟨_, _, .fbDataOpen hv he hi hf, rfl⟩
    · obtain ⟨covered, rfl⟩ := completeDataFrame_eq_completedFrame hu
      exact .inr ⟨_, _, .fbDataFull hv he hi hf hu, rfl⟩
  | fbEnd =>
    obtain ⟨-, rfl⟩ | ⟨hv, hf, rfl⟩ | ⟨hv, hf, u, hu, rfl⟩ := execFbEnd_next h
    · exact .inl ⟨_, rfl⟩
    · exact .inr ⟨_, _, .fbEndEmpty hv hf, rfl⟩
    · obtain ⟨covered, rfl⟩ := completeDataFrame_eq_completedFrame hu
      exact .inr ⟨_, _, .fbEndOpen hv hf hu, rfl⟩
  | fbRead k =>
    obtain ⟨-, rfl⟩ | ⟨-, -, rfl⟩ | ⟨hk, hv, b, -, rfl⟩ := execFbRead_next h
    · exact .inl ⟨_, rfl⟩
    · exact .inl ⟨_, rfl⟩
    · exact .inr ⟨_, _, .fbRead hk hv, rfl⟩
  | fbAck =>
    obtain ⟨-, rfl⟩ | ⟨hv, rfl⟩ := execFbAck_next h
    · exact .inl ⟨_, rfl⟩
    · exact .inr ⟨_, _, .fbAck hv, rfl⟩
  | fbSentinel =>
    obtain ⟨-, rfl⟩ | ⟨-, -, rfl⟩ | ⟨hv, hf, rfl⟩ := execFbSentinel_next h
    · exact .inl ⟨_, rfl⟩
    · exact .inl ⟨_, rfl⟩
    · exact .inr ⟨_, _, .fbSentinel hv hf, rfl⟩
  | pmFeed b => exact .inr ⟨_, _, .pmFeed, (Host.Outcome.next.inj h).symm⟩
  | pmClear => exact .inr ⟨_, _, .pmClear, (Host.Outcome.next.inj h).symm⟩

/-- Everything a step with a word issued can do when it answers: reject the word or its command, or respond to an accepted
effect of its command. -/
theorem step_next {w : Word} {rest : List Word} {s t : State} (h : step (withCommands s (w :: rest)) = .next t) :
    (∃ e, t = reject e (withCommands s rest))
    ∨ ∃ i v u, decode w = .ok i ∧ Accepts i (withCommands s rest) u ∧ t = respond v u := by
  obtain ⟨hidle, -⟩ | ⟨w', rest', i, hcons, hdecode, hstep⟩ | ⟨w', rest', e, hcons, -, hstep⟩ :=
    step_cases (withCommands s (w :: rest))
  case inl => cases hidle
  case inr.inl =>
    obtain ⟨rfl, rfl⟩ := List.cons.inj hcons
    obtain ⟨e, ht⟩ | ⟨v, u, hu, ht⟩ := exec_next (hstep.symm.trans h)
    · exact .inl ⟨e, ht⟩
    · exact .inr ⟨i, v, u, hdecode, hu, ht⟩
  case inr.inr =>
    obtain ⟨rfl, rfl⟩ := List.cons.inj hcons
    exact .inl ⟨_, (Host.Outcome.next.inj (hstep.symm.trans h)).symm⟩

/-- No error has the code of an acceptance (60_exceptions.md R231). -/
theorem errorCode_ne_zero (e : ErrorName) : e.code ≠ 0 := by
  cases e <;> decide

theorem toNat_errorCode_le_eight (e : ErrorName) : e.code.toNat ≤ 8 := by
  cases e <;> decide

end Sys2Proof.Proofs
end

section
/-! PROOFS. What the commands of each unit leave unchanged, and which commands write each register (10_state.md R45). -/

namespace Sys2Proof.Proofs

open Sys2Proof.Machine Sys2Proof.Safety

/-! ## Frames -/

theorem otherUnitsKept_reject (e : ErrorName) (s : State) : OtherUnitsKept s (reject e s) :=
  ⟨reject_crcReg e s, reject_crcOut e s, reject_pmState e s, reject_commands e s⟩

theorem frameBuilderKept_reject (e : ErrorName) (s : State) : FrameBuilderKept s (reject e s) :=
  ⟨reject_page e s, reject_fill e s, reject_frameValid e s, reject_frameKind e s, reject_exhausted e s⟩

theorem bufferKept_reject (e : ErrorName) (s : State) : BufferKept s (reject e s) :=
  fun a => congrArg (·.byteAt a) (reject_fbBuf e s)

/-- Completion stores at 0, in the padding and at 65 and 66, and nowhere else (41_frame.md R150). -/
theorem byteAt_completedFrame_other (s : State) (covered : List Byte) {a : Nat} (h0 : a ≠ 0)
    (hpad : ¬(dataIndex s ≤ a ∧ a ≤ 64)) (h65 : a ≠ 65) (h66 : a ≠ 66) :
    (completedFrame s covered).fbBuf.byteAt a = s.fbBuf.byteAt a := by
  have hcrc : (completedFrame s covered).fbBuf.byteAt a = (paddedPage s).byteAt a := by
    simp [completedFrame, byteAt_storeCrc, h65, h66]
  exact hcrc.trans ((byteAt_paddedPage s a).trans ((if_neg hpad).trans (if_neg h0)))

/-- A command of the CRC unit writes the CRC registers and its response, and nothing else. -/
theorem exec_crcUnit_next {i : Instr} (hi : isCrcUnit i = true) {s t : State} (h : exec i s = .next t) :
    ∃ reg out v, t = respond v { s with crcReg := reg, crcOut := out } := by
  cases i with
  | crcClear | crcByte b | crcFinish => exact ⟨_, _, _, (Host.Outcome.next.inj h).symm⟩
  | _ => cases hi

/-- Settles O21: a CRC command writes the two CRC registers at most, and each of them is written by its own commands. -/
theorem crcCommandsLeaveTheRest : Obligations.CrcCommandsLeaveTheRest := by
  intro b s t
  refine ⟨fun h => ?_, fun h => ?_, fun h => ?_⟩
  · have hcrc : ∃ reg out v, t = respond v { s with crcReg := reg, crcOut := out } := by
      obtain h | h | h := h <;> exact exec_crcUnit_next rfl h
    obtain ⟨reg, out, v, rfl⟩ := hcrc
    exact ⟨⟨rfl, rfl, rfl, rfl, rfl⟩, ⟨rfl, rfl⟩, fun _ => rfl, rfl, rfl⟩
  · obtain h | h := h <;> cases Host.Outcome.next.inj h <;> rfl
  · cases Host.Outcome.next.inj h
    rfl

/-- Settles O37: PM_FEED and PM_CLEAR write PM_STATE and their response, and nothing else. -/
theorem matcherCommandsLeaveTheRest : Obligations.MatcherCommandsLeaveTheRest := by
  intro b s t h
  have hpm : ∃ p v, t = respond v { s with pmState := p } := by
    obtain h | h := h <;> exact ⟨_, _, (Host.Outcome.next.inj h).symm⟩
  obtain ⟨p, v, rfl⟩ := hpm
  exact ⟨rfl, rfl, ⟨rfl, rfl, rfl, rfl, rfl⟩, ⟨rfl, rfl⟩, fun _ => rfl, rfl⟩

/-- Settles O43, from what each of the three control commands can do. -/
theorem controlCommandsLeaveTheRest : Obligations.ControlCommandsLeaveTheRest := by
  intro r s t
  refine ⟨fun h => ?_, fun h hr => ?_, fun h => ?_⟩
  · obtain h | h := h
    case inl =>
      cases Host.Outcome.next.inj h
      exact ⟨⟨rfl, rfl, rfl, rfl⟩, ⟨rfl, rfl, rfl, rfl, rfl⟩, fun _ => rfl⟩
    case inr =>
      obtain ⟨-, rfl⟩ | ⟨-, v, -, rfl⟩ := execReadReg_next h
      · exact ⟨otherUnitsKept_reject _ s, frameBuilderKept_reject _ s, bufferKept_reject _ s⟩
      · exact ⟨⟨rfl, rfl, rfl, rfl⟩, ⟨rfl, rfl, rfl, rfl, rfl⟩, fun _ => rfl⟩
  · obtain ⟨hr', -⟩ | ⟨-, v, -, rfl⟩ := execReadReg_next h
    · omega
    · exact ⟨rfl, rfl⟩
  · cases Host.Outcome.next.inj h
    exact ⟨fun _ => rfl, rfl⟩

/-- Settles O28, from what FB_READ and FB_ACK can do: reject, or respond and (FB_ACK) release the frame. -/
theorem nonStoringFrameCommandsLeaveTheRest : Obligations.NonStoringFrameCommandsLeaveTheRest := by
  intro i s t
  refine ⟨fun h => ?_, fun h => ?_⟩
  · obtain ⟨hi, rfl⟩ | ⟨-, hv, rfl⟩ | ⟨-, -, b, -, rfl⟩ := execFbRead_next h
    · exact ⟨otherUnitsKept_reject _ s, frameBuilderKept_reject _ s, bufferKept_reject _ s, fun hle => by omega⟩
    · exact ⟨otherUnitsKept_reject _ s, frameBuilderKept_reject _ s, bufferKept_reject _ s,
        fun _ hheld => by simp [hv] at hheld⟩
    · exact ⟨⟨rfl, rfl, rfl, rfl⟩, ⟨rfl, rfl, rfl, rfl, rfl⟩, fun _ => rfl, fun _ _ => ⟨rfl, rfl⟩⟩
  · obtain ⟨hv, rfl⟩ | ⟨hv, rfl⟩ := execFbAck_next h
    · exact ⟨otherUnitsKept_reject _ s, bufferKept_reject _ s, reject_page _ s, reject_exhausted _ s,
        fun hheld => by simp [hv] at hheld, fun _ => frameBuilderKept_reject _ s⟩
    · exact ⟨⟨rfl, rfl, rfl, rfl⟩, fun _ => rfl, rfl, rfl, fun _ => ⟨rfl, rfl⟩, fun hfree => by simp [hv] at hfree⟩

/-- The push of a data byte completes the page exactly when 63 bytes were taken before it (41_frame.md R151). -/
theorem fill_succ_eq_64 (fill : BitVec 7) : fill + 1 = 64 ↔ fill.toNat = 63 := by
  constructor <;> intro h <;> bv_omega

/-- The 64th data byte leaves no padding, so it stores at its own index, at 0, and at 65 and 66 only. -/
theorem byteAt_completedFrame_pushByte (b : Byte) (s : State) (covered : List Byte) (hfill : s.fill + 1 = 64) {a : Nat}
    (h0 : a ≠ 0) (hdata : a ≠ dataIndex s) (h65 : a ≠ 65) (h66 : a ≠ 66) :
    (completedFrame (pushByte b s) covered).fbBuf.byteAt a = s.fbBuf.byteAt a := by
  have hfull : dataIndex (pushByte b s) = 65 := by
    change 1 + (s.fill + 1).toNat = 65
    rw [hfill]
    rfl
  rw [byteAt_completedFrame_other _ _ h0 (by omega) h65 h66]
  exact Memory.byteAt_store_other _ _ hdata

/-- Settles O27, case by case over what FB_DATA, FB_END and FB_SENTINEL can do. -/
theorem storingCommandsLeaveTheRest : Obligations.StoringCommandsLeaveTheRest := by
  intro b s t
  refine ⟨fun h => ?_, fun h => ?_, fun h => ?_⟩
  · obtain ⟨hv, rfl⟩ | ⟨-, he, rfl⟩ | ⟨hv, he, -, hfill, rfl⟩ | ⟨hv, he, -, hfill, u, hu, rfl⟩ := execFbData_next h
    · exact ⟨otherUnitsKept_reject _ s, reject_exhausted _ s,
        fun _ => ⟨frameBuilderKept_reject _ s, bufferKept_reject _ s⟩, fun hopen => by simp [hv] at hopen⟩
    · exact ⟨otherUnitsKept_reject _ s, reject_exhausted _ s,
        fun _ => ⟨frameBuilderKept_reject _ s, bufferKept_reject _ s⟩, fun hopen => by simp [he] at hopen⟩
    · exact ⟨⟨rfl, rfl, rfl, rfl⟩, rfl, fun hclosed => by simp [hv, he] at hclosed, fun _ => ⟨⟨rfl, rfl⟩,
        fun _ => ⟨rfl, rfl, rfl, fun a ha => Memory.byteAt_store_other _ b ha⟩,
        fun h63 => absurd ((fill_succ_eq_64 s.fill).mpr h63) hfill⟩⟩
    · obtain ⟨covered, rfl⟩ := completeDataFrame_eq_completedFrame hu
      exact ⟨⟨rfl, rfl, rfl, rfl⟩, rfl, fun hclosed => by simp [hv, he] at hclosed, fun _ => ⟨⟨rfl, rfl⟩,
        fun h63 => absurd ((fill_succ_eq_64 s.fill).mp hfill) h63,
        fun _ a h0 hdata h65 h66 => byteAt_completedFrame_pushByte b s covered hfill h0 hdata h65 h66⟩⟩
  · obtain ⟨hv, rfl⟩ | ⟨hv, hfill, rfl⟩ | ⟨hv, hfill, u, hu, rfl⟩ := execFbEnd_next h
    · exact ⟨otherUnitsKept_reject _ s, reject_fill _ s,
        fun _ => ⟨frameBuilderKept_reject _ s, bufferKept_reject _ s⟩, fun hfree => by simp [hv] at hfree,
        fun hfree => by simp [hv] at hfree, fun hfree => by simp [hv] at hfree⟩
    · exact ⟨⟨rfl, rfl, rfl, rfl⟩, rfl, fun hheld => by simp [hv] at hheld, fun _ => ⟨rfl, rfl⟩,
        fun _ _ => ⟨fun _ => rfl, rfl, rfl, rfl⟩, fun _ hne => by simp [hfill] at hne⟩
    · obtain ⟨covered, rfl⟩ := completeDataFrame_eq_completedFrame hu
      exact ⟨⟨rfl, rfl, rfl, rfl⟩, rfl, fun hheld => by simp [hv] at hheld, fun _ => ⟨rfl, rfl⟩,
        fun _ hzero => absurd (BitVec.eq_of_toNat_eq hzero) hfill,
        fun _ _ => ⟨rfl, fun a h0 hpad h65 h66 => byteAt_completedFrame_other s covered h0 hpad h65 h66⟩⟩
  · obtain ⟨hv, rfl⟩ | ⟨-, hfill, rfl⟩ | ⟨hv, hfill, rfl⟩ := execFbSentinel_next h
    · exact ⟨otherUnitsKept_reject _ s, reject_page _ s, reject_fill _ s, reject_exhausted _ s,
        fun _ => ⟨frameBuilderKept_reject _ s, bufferKept_reject _ s⟩, fun hfree => by simp [hv] at hfree⟩
    · exact ⟨otherUnitsKept_reject _ s, reject_page _ s, reject_fill _ s, reject_exhausted _ s,
        fun _ => ⟨frameBuilderKept_reject _ s, bufferKept_reject _ s⟩,
        fun _ hzero => absurd (BitVec.eq_of_toNat_eq hzero) hfill⟩
    · refine ⟨⟨rfl, rfl, rfl, rfl⟩, rfl, rfl, rfl, fun hreject => by simp [hv, hfill] at hreject,
        fun _ _ => ⟨⟨rfl, rfl⟩, fun a ha => ?_⟩⟩
      rw [respond_fbBuf, Memory.byteAt_storeList_replicate, if_neg (by omega)]

/-! ## The error record -/

theorem responses_of_accepts {i : Instr} {s u : State} (h : Accepts i s u) : u.responses = s.responses := by
  cases h <;> rfl

/-- Only CLR_ERR and RESET, accepted, write the error record (60_exceptions.md R238). -/
theorem errorRecordKept_of_accepts {i : Instr} {s u : State} (h : Accepts i s u) (hclr : i ≠ .clrErr)
    (hreset : i ≠ .reset) : ErrorRecordKept s u := by
  cases h with
  | clrErr => exact absurd rfl hclr
  | reset => exact absurd rfl hreset
  | _ => exact ⟨rfl, rfl⟩

/-- Settles O47: a reject records its code unless an error stands, and an accepted command keeps the record. -/
theorem errorRecordKeepsTheFirstError : Obligations.ErrorRecordKeepsTheFirstError := by
  intro w rest s t r hstep hresponse hclr hreset
  obtain ⟨e, rfl⟩ | ⟨i, v, u, hdecode, hu, rfl⟩ := step_next hstep
  · obtain rfl : ⟨e.code, 0⟩ = r := by simpa using hresponse
    exact ⟨fun herr => by simp [herr], fun herr _ => by simp [herr], fun hcode => absurd hcode (errorCode_ne_zero e)⟩
  · obtain rfl : ⟨0, v⟩ = r := by simpa using hresponse
    obtain ⟨herr, hcode⟩ := errorRecordKept_of_accepts hu (fun h => hclr (h ▸ hdecode)) (fun h => hreset (h ▸ hdecode))
    exact ⟨fun hset => ⟨herr.trans hset, hcode⟩, fun _ hne => absurd rfl hne, fun _ => ⟨herr, hcode⟩⟩

/-! ## Who writes what -/

/-- A register that a reject keeps and that a command changed was changed by the accepted effect of that command. -/
theorem accepts_of_changed {α : Type} {register : State → α} {i : Instr} {s t : State} (h : exec i s = .next t)
    (hreject : ∀ e, register (reject e s) = register s) (hne : register t ≠ register s) :
    ∃ v u, Accepts i s u ∧ t = respond v u := by
  obtain ⟨e, rfl⟩ | haccepts := exec_next h
  · exact absurd (hreject e) hne
  · exact haccepts

section Writers

variable {i : Instr} {s t : State} (h : exec i s = .next t)
include h

theorem writers_of_crcReg (hne : t.crcReg ≠ s.crcReg) : i = .crcClear ∨ (∃ b, i = .crcByte b) ∨ i = .reset := by
  obtain ⟨v, u, hu, rfl⟩ := accepts_of_changed h (reject_crcReg · s) hne
  cases hu with
  | crcClear => exact .inl rfl
  | crcByte => exact .inr (.inl ⟨_, rfl⟩)
  | reset => exact .inr (.inr rfl)
  | _ => exact absurd rfl hne

theorem writers_of_crcOut (hne : t.crcOut ≠ s.crcOut) : i = .crcFinish ∨ i = .reset := by
  obtain ⟨v, u, hu, rfl⟩ := accepts_of_changed h (reject_crcOut · s) hne
  cases hu with
  | crcFinish => exact .inl rfl
  | reset => exact .inr rfl
  | _ => exact absurd rfl hne

theorem writers_of_page (hne : t.page ≠ s.page) :
    (((∃ b, i = .fbData b) ∨ i = .fbEnd) ∧ Completes s t) ∨ i = .reset := by
  obtain ⟨v, u, hu, rfl⟩ := accepts_of_changed h (reject_page · s) hne
  cases hu with
  | fbDataFull hv => exact .inl ⟨.inl ⟨_, rfl⟩, hv, rfl, rfl⟩
  | fbEndOpen hv => exact .inl ⟨.inr rfl, hv, rfl, rfl⟩
  | reset => exact .inr rfl
  | _ => exact absurd rfl hne

theorem writers_of_fill (hne : t.fill ≠ s.fill) : (∃ b, i = .fbData b) ∨ i = .fbAck ∨ i = .reset := by
  obtain ⟨v, u, hu, rfl⟩ := accepts_of_changed h (reject_fill · s) hne
  cases hu with
  | fbDataOpen | fbDataFull => exact .inl ⟨_, rfl⟩
  | fbAck => exact .inr (.inl rfl)
  | reset => exact .inr (.inr rfl)
  | _ => exact absurd rfl hne

theorem writers_of_fbBuf (hne : t.fbBuf ≠ s.fbBuf) :
    (∃ b, i = .fbData b) ∨ (i = .fbEnd ∧ Completes s t) ∨ i = .fbSentinel := by
  obtain ⟨v, u, hu, rfl⟩ := accepts_of_changed h (reject_fbBuf · s) hne
  cases hu with
  | fbDataOpen | fbDataFull => exact .inl ⟨_, rfl⟩
  | fbEndOpen hv => exact .inr (.inl ⟨rfl, hv, rfl, rfl⟩)
  | fbSentinel => exact .inr (.inr rfl)
  | _ => exact absurd rfl hne

/-- FRAME_VALID and FRAME_KIND have the same writers, so one lemma serves both. -/
theorem writers_of_frameFlags (hne : t.frameValid ≠ s.frameValid ∨ t.frameKind ≠ s.frameKind) :
    (((∃ b, i = .fbData b) ∨ i = .fbEnd) ∧ Completes s t) ∨ i = .fbSentinel ∨ i = .fbAck ∨ i = .reset := by
  have hpair : (t.frameValid, t.frameKind) ≠ (s.frameValid, s.frameKind) := by
    simpa [Prod.ext_iff, imp_iff_not_or] using hne
  obtain ⟨v, u, hu, rfl⟩ := accepts_of_changed (register := fun s => (s.frameValid, s.frameKind)) h
    (fun e => by simp) hpair
  cases hu with
  | fbDataFull hv => exact .inl ⟨.inl ⟨_, rfl⟩, hv, rfl, rfl⟩
  | fbEndOpen hv => exact .inl ⟨.inr rfl, hv, rfl, rfl⟩
  | fbSentinel => exact .inr (.inl rfl)
  | fbAck => exact .inr (.inr (.inl rfl))
  | reset => exact .inr (.inr (.inr rfl))
  | _ => exact absurd rfl hpair

theorem writers_of_exhausted (hne : t.exhausted ≠ s.exhausted) : (i = .fbEnd ∧ s.fill = 0) ∨ i = .reset := by
  obtain ⟨v, u, hu, rfl⟩ := accepts_of_changed h (reject_exhausted · s) hne
  cases hu with
  | fbEndEmpty _ hfill => exact .inl ⟨rfl, hfill⟩
  | reset => exact .inr rfl
  | _ => exact absurd rfl hne

theorem writers_of_pmState (hne : t.pmState ≠ s.pmState) : (∃ b, i = .pmFeed b) ∨ i = .pmClear ∨ i = .reset := by
  obtain ⟨v, u, hu, rfl⟩ := accepts_of_changed h (reject_pmState · s) hne
  cases hu with
  | pmFeed => exact .inl ⟨_, rfl⟩
  | pmClear => exact .inr (.inl rfl)
  | reset => exact .inr (.inr rfl)
  | _ => exact absurd rfl hne

theorem writers_of_errorRecord (hne : t.err ≠ s.err ∨ t.errCode ≠ s.errCode) :
    (∃ r, t.responses = r :: s.responses ∧ r.code ≠ 0) ∨ i = .clrErr ∨ i = .reset := by
  obtain ⟨e, rfl⟩ | ⟨v, u, hu, rfl⟩ := exec_next h
  · exact .inl ⟨_, reject_responses e s, errorCode_ne_zero e⟩
  · refine .inr ?_
    by_contra! hother
    obtain ⟨herr, hcode⟩ := errorRecordKept_of_accepts hu hother.1 hother.2
    exact hne.elim (absurd herr) (absurd hcode)

/-- A command that answers with a nonzero code is rejected: it changes the error record alone (60_exceptions.md R232). -/
theorem eq_afterReject_of_code_ne_zero {r : Response} (hresponse : t.responses = r :: s.responses) (hcode : r.code ≠ 0) :
    t = afterReject r.code s := by
  obtain ⟨e, rfl⟩ | ⟨v, u, hu, rfl⟩ := exec_next h
  · obtain rfl : ⟨e.code, 0⟩ = r := by simpa using hresponse
    exact reject_eq_afterReject e s
  · obtain rfl : ⟨0, v⟩ = r := by simpa [responses_of_accepts hu] using hresponse
    exact absurd rfl hcode

/-- READ_REG and FB_READ, when they succeed, give their response and change nothing. -/
theorem read_changes_nothing {r : Response} (hresponse : t.responses = r :: s.responses) (hcode : r.code = 0)
    (hread : ∃ k, i = .readReg k ∨ i = .fbRead k) : t = { s with responses := r :: s.responses } := by
  obtain ⟨e, rfl⟩ | ⟨v, u, hu, rfl⟩ := exec_next h
  · obtain rfl : ⟨e.code, 0⟩ = r := by simpa using hresponse
    exact absurd hcode (errorCode_ne_zero e)
  · obtain rfl : u = s := by
      obtain ⟨k, rfl | rfl⟩ := hread <;> cases hu <;> rfl
    rw [← hresponse]
    rfl

theorem commands_kept : t.commands = s.commands := by
  obtain ⟨e, rfl⟩ | ⟨v, u, hu, rfl⟩ := exec_next h
  · exact reject_commands e s
  · cases hu <;> rfl

end Writers

/-- A word that does not decode is rejected, whatever the state. -/
theorem step_of_decode_error {w : Word} {e : DecodeError} (hdecode : decode w = .error e) (rest : List Word) (s : State) :
    step (withCommands s (w :: rest)) = .next (afterReject (decodeErrorName e).code (withCommands s rest)) := by
  rw [← reject_eq_afterReject]
  simp [step, fetchCommand, hdecode, withCommands]

/-- Settles O53: one lemma per register, each over the accepted effects, since a reject keeps every register but the error
record. -/
theorem registersChangeOnlyByTheirCommands : Obligations.RegistersChangeOnlyByTheirCommands := by
  refine ⟨fun i s t h => ?_, fun w e rest s hdecode => ⟨_, step_of_decode_error hdecode rest s⟩⟩
  exact ⟨writers_of_crcReg h, writers_of_crcOut h, writers_of_page h, writers_of_fill h, writers_of_fbBuf h,
    fun hne => writers_of_frameFlags h (.inl hne), fun hne => writers_of_frameFlags h (.inr hne),
    writers_of_exhausted h, writers_of_pmState h, writers_of_errorRecord h,
    fun _ => eq_afterReject_of_code_ne_zero h, fun _ => read_changes_nothing h, commands_kept h⟩

end Sys2Proof.Proofs
end

section
/-! PROOFS. The legal states (10_state.md R43): a legal state is one of three, a page is open, a data frame is held, or the
sentinel frame is held, and every step keeps that; and the layout of STATUS (R42). -/

namespace Sys2Proof.Proofs

open Sys2Proof.Machine Sys2Proof.Safety

/-! ## The three kinds of legal state -/

/-- The part of the registers' legality that is about the error record (10_state.md R43, 60_exceptions.md R231). -/
def ErrorRecordLegal (s : State) : Prop :=
  (s.err = false ↔ s.errCode = 0) ∧ s.errCode.toNat ≤ 8

/-- No frame is held: the page has room, it is empty if the stream has ended, and its data bytes are written. -/
def OpenPage (s : State) : Prop :=
  s.frameValid = false ∧ s.frameKind = .data ∧ s.fill.toNat < 64 ∧ (s.exhausted = true → s.fill.toNat = 0)
    ∧ ∀ k < s.fill.toNat, (s.fbBuf.byteAt (1 + k)).isSome = true

/-- A data frame is held: it took 1 to 64 data bytes, and the stream has not ended. -/
def HeldDataFrame (s : State) : Prop :=
  s.frameValid = true ∧ s.frameKind = .data ∧ 1 ≤ s.fill.toNat ∧ s.fill.toNat ≤ 64 ∧ s.exhausted = false
    ∧ ∀ k < 67, (s.fbBuf.byteAt k).isSome = true

/-- The sentinel frame is held, and took no data byte. -/
def HeldSentinel (s : State) : Prop :=
  s.frameValid = true ∧ s.frameKind = .sentinel ∧ s.fill.toNat = 0 ∧ ∀ k < 67, (s.fbBuf.byteAt k).isSome = true

theorem toNat_number_le_five (p : ConnectState) : p.number.toNat ≤ 5 := by
  cases p <;> decide

/-- The legal states, by what the frame builder holds (10_state.md R43). PM_STATE is in range by its type. -/
theorem legal_iff {s : State} :
    Legal s ↔ ErrorRecordLegal s ∧ s.fbBuf.wf ∧ (OpenPage s ∨ HeldDataFrame s ∨ HeldSentinel s) := by
  constructor
  · rintro ⟨⟨hle, hfull, hsentinel, hexhausted, hdata, -, herr⟩, hwf, hframe, hpage⟩
    refine ⟨herr, hwf, ?_⟩
    cases hv : s.frameValid with
    | false =>
      have hkind : s.frameKind = .data := by
        cases hk : s.frameKind with
        | data => rfl
        | sentinel => simp [hk, hv] at hsentinel
      have hroom : s.fill.toNat ≠ 64 := fun h64 => absurd ((hfull h64).1.symm.trans hv) (by decide)
      exact .inl ⟨hv, hkind, by omega, hexhausted, hpage hv⟩
    | true =>
      cases hk : s.frameKind with
      | data =>
        obtain ⟨hpos, he⟩ := hdata ⟨hv, hk⟩
        exact .inr (.inl ⟨hv, hk, hpos, hle, he, hframe hv⟩)
      | sentinel => exact .inr (.inr ⟨hv, hk, (hsentinel hk).2, hframe hv⟩)
  · rintro ⟨herr, hwf, hopen | hdata | hsentinel⟩
    · obtain ⟨hv, hk, hroom, hexhausted, hpage⟩ := hopen
      exact ⟨⟨by omega, fun _ => by omega, by simp [hk], hexhausted, by simp [hv], toNat_number_le_five _, herr⟩, hwf,
        fun hheld => by simp [hv] at hheld, fun _ => hpage⟩
    · obtain ⟨hv, hk, hpos, hle, he, hwritten⟩ := hdata
      exact ⟨⟨hle, fun _ => ⟨hv, hk⟩, by simp [hk], by simp [he], fun _ => ⟨hpos, he⟩, toNat_number_le_five _, herr⟩, hwf,
        fun _ => hwritten, fun hfree => by simp [hv] at hfree⟩
    · obtain ⟨hv, hk, hzero, hwritten⟩ := hsentinel
      exact ⟨⟨by omega, fun _ => by omega, fun _ => ⟨hv, hzero⟩, fun _ => hzero, by simp [hk], toNat_number_le_five _, herr⟩,
        hwf, fun _ => hwritten, fun hfree => by simp [hv] at hfree⟩

/-- An empty page, with no frame held, asks nothing of the buffer. -/
theorem openPage_of_empty {s : State} (hv : s.frameValid = false) (hk : s.frameKind = .data) (hfill : s.fill = 0) :
    OpenPage s := by
  have hzero : s.fill.toNat = 0 := congrArg BitVec.toNat hfill
  exact ⟨hv, hk, by omega, fun _ => hzero, fun k hlt => by omega⟩

theorem errorRecordLegal_of_clear {s : State} (herr : s.err = false) (hcode : s.errCode = 0) : ErrorRecordLegal s := by
  simp [ErrorRecordLegal, herr, hcode]

theorem openPage_of_legal {s : State} (hs : Legal s) (hv : s.frameValid = false) : OpenPage s := by
  obtain ⟨-, -, hopen | ⟨hheld, -⟩ | ⟨hheld, -⟩⟩ := legal_iff.mp hs
  · exact hopen
  · simp [hv] at hheld
  · simp [hv] at hheld

/-- Legality depends on the frame builder, the buffer and the error record alone. -/
theorem legal_of_kept {s t : State} (hs : Legal s) (hframe : FrameBuilderKept s t) (hbuf : t.fbBuf = s.fbBuf)
    (herr : ErrorRecordLegal t) : Legal t := by
  obtain ⟨-, hwf, hcases⟩ := legal_iff.mp hs
  obtain ⟨-, hfill, hvalid, hkind, hexhausted⟩ := hframe
  refine legal_iff.mpr ⟨herr, hbuf ▸ hwf, ?_⟩
  simpa only [OpenPage, HeldDataFrame, HeldSentinel, hfill, hvalid, hkind, hexhausted, hbuf] using hcases

/-- A reject records one of the eight codes, or keeps the record. -/
theorem legal_reject (e : ErrorName) {s : State} (hs : Legal s) : Legal (reject e s) := by
  refine legal_of_kept hs (frameBuilderKept_reject e s) (reject_fbBuf e s) ?_
  obtain ⟨⟨hiff, hle⟩, -⟩ := legal_iff.mp hs
  unfold ErrorRecordLegal
  rw [reject_err, reject_errCode]
  cases herr : s.err with
  | true => exact ⟨by simpa [herr] using hiff, by simpa using hle⟩
  | false => exact ⟨by simpa using errorCode_ne_zero e, toNat_errorCode_le_eight e⟩

/-- A data byte pushed into a page with room for two leaves the page open, the byte written (41_frame.md R151). -/
theorem openPage_pushByte (b : Byte) {s : State} (hs : OpenPage s) (he : s.exhausted = false) (hfill : s.fill + 1 ≠ 64) :
    OpenPage (pushByte b s) := by
  obtain ⟨hv, hk, hroom, -, hpage⟩ := hs
  have hsucc : (pushByte b s).fill.toNat = s.fill.toNat + 1 := by unfold pushByte; bv_omega
  have h63 : s.fill.toNat ≠ 63 := mt (fill_succ_eq_64 s.fill).mpr hfill
  refine ⟨hv, hk, by omega, fun hx => absurd (he.symm.trans hx) (by decide), fun k hlt => ?_⟩
  simp only [pushByte, dataIndex, Memory.byteAt_store]
  split
  case isTrue => rfl
  case isFalse hne => exact hpage k (by omega)

/-- A page with data bytes, of a stream that has not ended, completes to a held data frame (41_frame.md R150). -/
theorem heldDataFrame_completedFrame {s : State} {covered : List Byte}
    (hcomplete : completeDataFrame s = .ok (completedFrame s covered)) (hpos : 1 ≤ s.fill.toNat) (hle : s.fill.toNat ≤ 64)
    (he : s.exhausted = false) : HeldDataFrame (completedFrame s covered) :=
  ⟨rfl, rfl, hpos, hle, he, fun _ hk => completeDataFrame_written hcomplete hk⟩

theorem wf_completedFrame {s : State} (hwf : s.fbBuf.wf) (covered : List Byte) : (completedFrame s covered).fbBuf.wf :=
  wf_storeCrc (wf_paddedPage hwf) _

theorem wf_loadedSentinel {s : State} (hwf : s.fbBuf.wf) : (loadedSentinel s).fbBuf.wf := by
  have hlength : 0 + (List.replicate 67 (0xFF : Byte)).length ≤ 67 := by simp
  simpa only [loadedSentinel] using Memory.wf_storeList hwf hlength

/-- The sentinel loaded over an empty page is a held sentinel, all 67 bytes written (41_frame.md R155). -/
theorem heldSentinel_loadedSentinel {s : State} (hfill : s.fill = 0) : HeldSentinel (loadedSentinel s) := by
  refine ⟨rfl, rfl, congrArg BitVec.toNat hfill, fun k hk => ?_⟩
  unfold loadedSentinel
  rw [Memory.byteAt_storeList_replicate, if_pos (by omega)]
  rfl

/-- Every accepted effect leads from a legal state to a legal state. -/
theorem legal_of_accepts {i : Instr} {s u : State} (h : Accepts i s u) (hs : Legal s) : Legal u := by
  obtain ⟨herr, hwf, -⟩ := legal_iff.mp hs
  cases h with
  | reset => exact legal_iff.mpr ⟨errorRecordLegal_of_clear rfl rfl, hwf, .inl (openPage_of_empty rfl rfl rfl)⟩
  | clrErr => exact legal_of_kept hs ⟨rfl, rfl, rfl, rfl, rfl⟩ rfl (errorRecordLegal_of_clear rfl rfl)
  | readReg | fbRead => exact hs
  | crcClear | crcByte | crcFinish | pmFeed | pmClear => exact legal_of_kept hs ⟨rfl, rfl, rfl, rfl, rfl⟩ rfl herr
  | fbDataOpen hv he hindex hfill =>
    exact legal_iff.mpr ⟨herr, Memory.wf_store hwf hindex _, .inl (openPage_pushByte _ (openPage_of_legal hs hv) he hfill)⟩
  | @fbDataFull _ b _ hv he hindex hfill hcomplete =>
    have h64 : (pushByte b s).fill.toNat = 64 := congrArg BitVec.toNat hfill
    exact legal_iff.mpr ⟨herr, wf_completedFrame (Memory.wf_store hwf hindex _) _,
      .inr (.inl (heldDataFrame_completedFrame hcomplete (by omega) h64.le he))⟩
  | fbEndEmpty hv hfill =>
    obtain ⟨-, hk, hroom, -, hpage⟩ := openPage_of_legal hs hv
    exact legal_iff.mpr ⟨herr, hwf, .inl ⟨hv, hk, hroom, fun _ => congrArg BitVec.toNat hfill, hpage⟩⟩
  | fbEndOpen hv hfill hcomplete =>
    obtain ⟨-, -, hroom, hexhausted, -⟩ := openPage_of_legal hs hv
    have hpos : s.fill.toNat ≠ 0 := fun hzero => hfill (BitVec.eq_of_toNat_eq hzero)
    have he : s.exhausted = false := Bool.eq_false_iff.mpr (mt hexhausted hpos)
    exact legal_iff.mpr ⟨herr, wf_completedFrame hwf _,
      .inr (.inl (heldDataFrame_completedFrame hcomplete (by omega) hroom.le he))⟩
  | fbAck => exact legal_iff.mpr ⟨herr, hwf, .inl (openPage_of_empty rfl rfl rfl)⟩
  | fbSentinel hv hfill =>
    exact legal_iff.mpr ⟨herr, wf_loadedSentinel hwf, .inr (.inr (heldSentinel_loadedSentinel hfill))⟩

/-- A response and the host's command list are no part of legality. -/
theorem legal_withCommands {s : State} (hs : Legal s) (ws : List Word) : Legal (withCommands s ws) := hs

theorem legal_respond {s : State} (hs : Legal s) (v : Word) : Legal (respond v s) := hs

/-- A command that answers in a legal state leads to a legal state. -/
theorem legal_of_exec {i : Instr} {s t : State} (hs : Legal s) (h : exec i s = .next t) : Legal t := by
  obtain ⟨e, rfl⟩ | ⟨v, u, hu, rfl⟩ := exec_next h
  · exact legal_reject e hs
  · exact legal_respond (legal_of_accepts hu hs) v

/-- Settles O51: an idle step holds the state, and a step with a word issued rejects or runs a command. -/
theorem stepKeepsStatesLegal : Obligations.StepKeepsStatesLegal := by
  intro s t hs h
  obtain ⟨-, hidle⟩ | ⟨w, rest, i, -, -, hstep⟩ | ⟨w, rest, e, -, -, hstep⟩ := step_cases s
  · exact Host.Outcome.next.inj (hidle.symm.trans h) ▸ hs
  · exact legal_of_exec (legal_withCommands hs rest) (hstep.symm.trans h)
  · exact Host.Outcome.next.inj (hstep.symm.trans h) ▸ legal_reject _ (legal_withCommands hs rest)

/-- Settles O52: at reset an empty page is open, and no frame is held that could be unsound. -/
theorem resetStateIsLegal : Obligations.ResetStateIsLegal := by
  refine ⟨legal_iff.mpr ⟨errorRecordLegal_of_clear rfl rfl, ⟨.nil, fun _ hc => nomatch hc⟩, .inl ?_⟩, ?_, ?_⟩
  · exact openPage_of_empty rfl rfl rfl
  · exact fun hheld => nomatch hheld
  · exact fun hheld => nomatch hheld

/-! ## STATUS -/

/-- The low byte of STATUS bit by bit, from bit 0 up (10_state.md R42). -/
theorem getLsbD_statusWord_low (s : State) {k : Nat} (hk : k < 8) : (statusWord s).getLsbD k =
    if k < 3 then s.pmState.number.getLsbD k
    else if k = 3 then matchedFlag s
    else if k = 4 then s.frameValid
    else if k = 5 then s.frameKind.bit.getLsbD 0
    else if k = 6 then s.exhausted
    else s.err := by
  unfold statusWord
  change BitVec.getLsbD (w := 1 + 7 + 1 + 1 + 1 + 1 + 1 + 3) _ k = _
  simp only [BitVec.getLsbD_append]
  interval_cases k <;> simp

/-- The high byte of STATUS is FILL, with bit 15 above its 7 bits (10_state.md R42). -/
theorem getLsbD_statusWord_high (s : State) (k : Nat) : (statusWord s).getLsbD (8 + k) = s.fill.getLsbD k := by
  unfold statusWord
  change BitVec.getLsbD (w := 1 + 7 + 1 + 1 + 1 + 1 + 1 + 3) _ (8 + k) = _
  have hk : 8 + k - 3 - 1 - 1 - 1 - 1 - 1 = k := by omega
  simp only [BitVec.getLsbD_append, hk]
  have hbound : s.fill.getLsbD k = true → k ≤ 6 := fun hbit => Nat.le_of_lt_succ (BitVec.lt_of_getLsbD hbit)
  simpa +arith using hbound

/-- Settles O44: each field is read off the two bytes of STATUS. -/
theorem statusLayout : Obligations.StatusLayout := by
  refine ⟨fun s => ⟨?_, ?_, ?_, ?_, ?_, ?_, ?_, ?_⟩, by decide⟩
  · refine BitVec.eq_of_getLsbD_eq fun k hk => ?_
    rw [BitVec.getLsbD_extractLsb', Nat.zero_add, getLsbD_statusWord_low s (by omega)]
    simp [hk]
  · rw [getLsbD_statusWord_low s (by omega)]
    unfold matchedFlag
    cases s.pmState <;> rfl
  · exact getLsbD_statusWord_low s (by omega)
  · rw [getLsbD_statusWord_low s (by omega)]
    cases s.frameKind <;> rfl
  · exact getLsbD_statusWord_low s (by omega)
  · exact getLsbD_statusWord_low s (by omega)
  · refine BitVec.eq_of_getLsbD_eq fun k hk => ?_
    rw [BitVec.getLsbD_extractLsb', getLsbD_statusWord_high]
    simp [hk]
  · exact (getLsbD_statusWord_high s 7).trans (BitVec.getLsbD_of_ge s.fill 7 le_rfl)

end Sys2Proof.Proofs
end

section
/-! PROOFS. Running the host's command words (20_memory.md R70): a word is decoded back to its command, the command does
the same whatever words wait behind it, and so a run takes the commands in order. -/

namespace Sys2Proof.Proofs

open Sys2Proof.Machine Sys2Proof.Safety

/-! ## One step of a run -/

/-- The word of a well-formed command decodes to that command (30_encoding.md R93). -/
theorem decode_encode {i : Instr} (hi : i.wellFormed = true) : decode (encode i) = .ok i := by
  have hop : opField (encode i) = i.opcode := opField_commandWord _ _
  have hoperand : operandField (encode i) = i.operandByte := operandField_commandWord _ _
  simp only [decode, hop, hoperand]
  cases i with
  | readReg r | fbRead r =>
    have hr : r < 256 := by simpa [Instr.wellFormed] using hi
    simp [Instr.opcode, Instr.operandByte, Nat.mod_eq_of_lt hr]
  | _ => rfl

theorem step_of_commands_nil {s : State} (h : s.commands = []) : step s = .next s := by
  simp only [step, fetchCommand, h]

/-- A run whose first step answers goes on from the state it answers. -/
theorem run_succ_of_next {s t : State} (h : step s = .next t) (n : Nat) :
    Host.Core.run core (n + 1) s = Host.Core.run core n t := by
  have hcore : core.step s = .next t := h
  simp only [Host.Core.run, hcore]

theorem run_succ_of_fault {s : State} {f : Fault} (h : step s = .fault f) (n : Nat) :
    Host.Core.run core (n + 1) s = .fault f := by
  have hcore : core.step s = .fault f := h
  simp only [Host.Core.run, hcore]

theorem run_succ_of_refused {s : State} {r : Refusal} (h : step s = .refused r) (n : Nat) :
    Host.Core.run core (n + 1) s = .refused r := by
  have hcore : core.step s = .refused r := h
  simp only [Host.Core.run, hcore]

theorem execAll_cons_fault {i : Instr} {is : List Instr} {s : State} {f : Fault} (h : exec i s = .fault f) :
    execAll (i :: is) s = .fault f := by
  simp only [execAll, h]

theorem execAll_cons_refused {i : Instr} {is : List Instr} {s : State} {r : Refusal} (h : exec i s = .refused r) :
    execAll (i :: is) s = .refused r := by
  simp only [execAll, h]

/-! ## The words that wait have no part in a command -/

theorem reject_withCommands (e : ErrorName) (s : State) (ws : List Word) :
    reject e (withCommands s ws) = withCommands (reject e s) ws := by
  simp only [reject_eq_afterReject]
  rfl

theorem completeAndRespond_withCommands (s : State) (ws : List Word) :
    completeAndRespond (withCommands s ws) = mapNext (withCommands · ws) (completeAndRespond s) := by
  have hpadded : paddedPage (withCommands s ws) = paddedPage s := rfl
  unfold completeAndRespond completeDataFrame
  rw [hpadded]
  cases readFrameBytes (paddedPage s) 0 Config.coveredLen <;> rfl

theorem execReadReg_withCommands (r : Nat) (s : State) (ws : List Word) :
    execReadReg r (withCommands s ws) = mapNext (withCommands · ws) (execReadReg r s) := by
  have hread : readRegister (withCommands s ws) r = readRegister s r := rfl
  unfold execReadReg
  rw [hread]
  cases readRegister s r with
  | none => exact congrArg Host.Outcome.next (reject_withCommands _ s ws)
  | some v => rfl

theorem execFbData_withCommands (b : Byte) (s : State) (ws : List Word) :
    execFbData b (withCommands s ws) = mapNext (withCommands · ws) (execFbData b s) := by
  unfold execFbData
  change (if s.frameValid then _ else if s.exhausted then _ else
    match writeFrameByte s.fbBuf (dataIndex s) b with | .error f => _ | .ok m => _) = _
  split
  · exact congrArg Host.Outcome.next (reject_withCommands _ s ws)
  · split
    · exact congrArg Host.Outcome.next (reject_withCommands _ s ws)
    · cases writeFrameByte s.fbBuf (dataIndex s) b with
      | error f => rfl
      | ok m =>
        change (if s.fill + 1 = 64 then _ else _) = mapNext _ (if s.fill + 1 = 64 then _ else _)
        split
        · exact completeAndRespond_withCommands { s with fbBuf := m, fill := s.fill + 1 } ws
        · rfl

theorem execFbEnd_withCommands (s : State) (ws : List Word) :
    execFbEnd (withCommands s ws) = mapNext (withCommands · ws) (execFbEnd s) := by
  unfold execFbEnd
  change (if s.frameValid then _ else if s.fill = 0 then _ else _) = _
  split
  · exact congrArg Host.Outcome.next (reject_withCommands _ s ws)
  · split
    · rfl
    · exact completeAndRespond_withCommands s ws

theorem execFbRead_withCommands (k : Nat) (s : State) (ws : List Word) :
    execFbRead k (withCommands s ws) = mapNext (withCommands · ws) (execFbRead k s) := by
  unfold execFbRead
  change (if !legalIndex k then _ else if !s.frameValid then _ else
    match readFrameByte s.fbBuf k with | .error f => _ | .ok b => _) = _
  split
  · exact congrArg Host.Outcome.next (reject_withCommands _ s ws)
  · split
    · exact congrArg Host.Outcome.next (reject_withCommands _ s ws)
    · cases readFrameByte s.fbBuf k <;> rfl

theorem execFbAck_withCommands (s : State) (ws : List Word) :
    execFbAck (withCommands s ws) = mapNext (withCommands · ws) (execFbAck s) := by
  unfold execFbAck
  change (if !s.frameValid then _ else _) = _
  split
  · exact congrArg Host.Outcome.next (reject_withCommands _ s ws)
  · rfl

/-- FB_SENTINEL with its checks in order and the loaded frame by name (41_frame.md R155). -/
theorem execFbSentinel_eq (s : State) : execFbSentinel s =
    if s.frameValid then .next (reject .framePending s)
    else if s.fill ≠ 0 then .next (reject .pageOpen s)
    else .next (respond 0 (loadedSentinel s)) := by
  simp only [execFbSentinel, loadedSentinel, Config.frameLen, Config.sentinelByte]

theorem execFbSentinel_withCommands (s : State) (ws : List Word) :
    execFbSentinel (withCommands s ws) = mapNext (withCommands · ws) (execFbSentinel s) := by
  rw [execFbSentinel_eq, execFbSentinel_eq]
  change (if s.frameValid then _ else if s.fill ≠ 0 then _ else _) = _
  split
  · exact congrArg Host.Outcome.next (reject_withCommands _ s ws)
  · split
    · exact congrArg Host.Outcome.next (reject_withCommands _ s ws)
    · simp only [mapNext, respond, loadedSentinel, withCommands]

/-- A command does the same whatever words the host has issued behind it, stops included. -/
theorem exec_withCommands (i : Instr) (s : State) (ws : List Word) :
    exec i (withCommands s ws) = mapNext (withCommands · ws) (exec i s) := by
  cases i with
  | readReg r => exact execReadReg_withCommands r s ws
  | fbData b => exact execFbData_withCommands b s ws
  | fbEnd => exact execFbEnd_withCommands s ws
  | fbRead k => exact execFbRead_withCommands k s ws
  | fbAck => exact execFbAck_withCommands s ws
  | fbSentinel => exact execFbSentinel_withCommands s ws
  | reset | clrErr | crcClear | crcByte | crcFinish | pmFeed | pmClear => rfl

/-- A step on the word of a well-formed command is that command, whatever words `rest` it would be run before. -/
theorem step_encode {i : Instr} (hi : i.wellFormed = true) (s : State) (ws rest : List Word) :
    step (withCommands s (encode i :: ws)) = mapNext (withCommands · ws) (exec i (withCommands s rest)) := by
  rw [stepRunsTheDecodedCommand _ _ _ _ (withCommands_commands s _) (decode_encode hi)]
  exact exec_withCommands i (withCommands s rest) ws

/-- Settles O9, by induction on the commands: each step is the first command, which leaves the words behind it. -/
theorem runOfWordsExecutesTheCommands : Obligations.RunOfWordsExecutesTheCommands := by
  intro is
  induction is with
  | nil => exact fun _ _ _ => rfl
  | cons i is ih =>
    intro s rest hwf
    obtain ⟨hi, his⟩ := List.forall_mem_cons.mp hwf
    have hstep := step_encode hi s (is.map encode ++ rest) rest
    cases hexec : exec i (withCommands s rest) with
    | next t =>
      have hkept : withCommands t rest = t := by
        rw [← show t.commands = rest from commands_kept hexec]
        rfl
      rw [hexec] at hstep
      have hrun := (run_succ_of_next hstep is.length).trans (ih t rest his)
      rw [hkept] at hrun
      exact hrun.trans (execAll_cons_next hexec).symm
    | fault f =>
      rw [hexec] at hstep
      exact (run_succ_of_fault hstep is.length).trans (execAll_cons_fault hexec).symm
    | refused r =>
      rw [hexec] at hstep
      exact (run_succ_of_refused hstep is.length).trans (execAll_cons_refused hexec).symm

end Sys2Proof.Proofs
end

section
/-! PROOFS. The held frame stays sound (41_frame.md R155, R158, R159): whatever completes a page makes a sound data frame,
FB_SENTINEL a sound sentinel, and no other command touches a held frame. -/

namespace Sys2Proof.Proofs

open Sys2Proof.Machine Sys2Proof.Safety

/-- With no frame held there is nothing to be sound. -/
theorem frameSound_of_noFrame {s : State} (hv : s.frameValid = false) : FrameSound s :=
  ⟨fun hheld => absurd (hv.symm.trans hheld) (by decide), fun hheld => absurd (hv.symm.trans hheld) (by decide)⟩

/-- The soundness of a frame depends on the frame builder's registers and the buffer alone. -/
theorem frameSound_of_kept {s t : State} (hs : FrameSound s) (hframe : FrameBuilderKept s t) (hbuf : t.fbBuf = s.fbBuf) :
    FrameSound t := by
  obtain ⟨hpage, hfill, hvalid, hkind, -⟩ := hframe
  simpa only [FrameSound, DataFrameSound, SentinelSound, hpage, hfill, hvalid, hkind, hbuf] using hs

/-- Completion makes a sound data frame out of any page it answers for, FILL above 64 too (41_frame.md R150). -/
theorem frameSound_of_completeDataFrame {s t : State} (h : completeDataFrame s = .ok t) : FrameSound t := by
  obtain ⟨covered, hcovered, ht⟩ := completeDataFrame_ok h
  have hpadded {k : Nat} (hk : k < 65) := completeDataFrame_byteAt h hk
  have hread : readFrameBytes t.fbBuf 0 65 = .ok covered := by
    obtain ⟨hlength, hbytes⟩ := readFrameBytes_eq_ok.mp hcovered
    refine readFrameBytes_eq_ok.mpr ⟨hlength, fun k hk => ⟨by omega, ?_⟩⟩
    rw [hpadded (by omega), (hbytes k hk).2]
  subst ht
  refine ⟨fun _ _ => ⟨?_, fun k hfill hk => ?_, covered, hread, ?_, ?_⟩, fun _ hkind => nomatch hkind⟩
  · rw [hpadded (by omega), byteAt_paddedPage, if_neg (by omega), if_pos rfl]
    simp
  · rw [hpadded (by omega), byteAt_paddedPage, if_pos ⟨by simpa using hfill, by omega⟩]
  · simp [byteAt_storeCrc, lowByte]
  · simp [byteAt_storeCrc, highByte]

/-- The sentinel, loaded, is 67 bytes 0xFF (41_frame.md R155). -/
theorem frameSound_loadedSentinel (s : State) : FrameSound (loadedSentinel s) := by
  refine ⟨fun _ hkind => (nomatch hkind), fun _ _ k hk => ?_⟩
  unfold loadedSentinel
  rw [Memory.byteAt_storeList_replicate, if_pos (by omega)]

/-- Every accepted effect keeps the held frame, makes a sound one, or leaves none held. -/
theorem frameSound_of_accepts {i : Instr} {s u : State} (h : Accepts i s u) (hs : FrameSound s) : FrameSound u := by
  cases h with
  | reset => exact frameSound_of_noFrame rfl
  | fbAck => exact frameSound_of_noFrame rfl
  | fbDataOpen hv => exact frameSound_of_noFrame hv
  | fbDataFull _ _ _ _ hcomplete => exact frameSound_of_completeDataFrame hcomplete
  | fbEndOpen _ _ hcomplete => exact frameSound_of_completeDataFrame hcomplete
  | fbSentinel => exact frameSound_loadedSentinel s
  | fbEndEmpty hv => exact frameSound_of_noFrame hv
  | clrErr | readReg | crcClear | crcByte | crcFinish | fbRead | pmFeed | pmClear => exact hs

theorem frameSound_reject (e : ErrorName) {s : State} (hs : FrameSound s) : FrameSound (reject e s) :=
  frameSound_of_kept hs (frameBuilderKept_reject e s) (reject_fbBuf e s)

/-- A response and the host's command list are no part of a frame. -/
theorem frameSound_withCommands {s : State} (hs : FrameSound s) (ws : List Word) : FrameSound (withCommands s ws) := hs

theorem frameSound_respond {s : State} (hs : FrameSound s) (v : Word) : FrameSound (respond v s) := hs

/-- A command that answers keeps the held frame sound. -/
theorem frameSound_of_exec {i : Instr} {s t : State} (hs : FrameSound s) (h : exec i s = .next t) : FrameSound t := by
  obtain ⟨e, rfl⟩ | ⟨v, u, hu, rfl⟩ := exec_next h
  · exact frameSound_reject e hs
  · exact frameSound_respond (frameSound_of_accepts hu hs) v

/-- Settles O32: an idle step holds the state, a step with a word issued rejects or runs a command; the CRC of 65 bytes
0xFF is computed. -/
theorem stepKeepsHeldFramesSound : Obligations.StepKeepsHeldFramesSound := by
  refine ⟨fun s t hs h => ?_, by decide +kernel⟩
  obtain ⟨-, hidle⟩ | ⟨w, rest, i, -, -, hstep⟩ | ⟨w, rest, e, -, -, hstep⟩ := step_cases s
  · exact Host.Outcome.next.inj (hidle.symm.trans h) ▸ hs
  · exact frameSound_of_exec (frameSound_withCommands hs rest) (hstep.symm.trans h)
  · exact Host.Outcome.next.inj (hstep.symm.trans h) ▸ frameSound_reject _ (frameSound_withCommands hs rest)

end Sys2Proof.Proofs
end

section
/-! PROOFS. What the host cannot see of FB_BUF never shows (20_memory.md R62): the block and the block with another buffer
of the same view answer every command alike, and their buffers keep the same view. -/

namespace Sys2Proof.Proofs

open Sys2Proof.Machine Sys2Proof.Safety

/-! ## The relation every step keeps -/

/-- The state with another frame buffer. -/
def withBuffer (s : State) (m : Memory) : State := { s with fbBuf := m }

/-- Both results are next states that differ in the buffer alone, and the buffers have the same view. -/
def SameAnswer (r r' : Result) : Prop :=
  ∃ t m, r = .next t ∧ r' = .next (withBuffer t m) ∧ SameView t m

/-- An empty page shows the host no byte of the buffer. -/
theorem sameView_of_empty {s : State} {m : Memory} (hwf : m.wf) (hv : s.frameValid = false) (hfill : s.fill = 0) :
    SameView s m :=
  ⟨hwf, fun hheld => by simp [hv] at hheld, fun _ k hk => by simp [hfill] at hk⟩

theorem reject_withBuffer (e : ErrorName) (s : State) (m : Memory) :
    reject e (withBuffer s m) = withBuffer (reject e s) m := by
  simp only [reject_eq_afterReject]
  rfl

theorem sameAnswer_reject (e : ErrorName) {s : State} {m : Memory} (h : SameView s m) :
    SameAnswer (.next (reject e s)) (.next (reject e (withBuffer s m))) :=
  ⟨_, m, rfl, by rw [reject_withBuffer], by
    simpa only [SameView, reject_frameValid, reject_fill, reject_fbBuf] using h⟩

theorem sameAnswer_respond (v : Word) {s : State} {m : Memory} (h : SameView s m) :
    SameAnswer (.next (respond v s)) (.next (respond v (withBuffer s m))) :=
  ⟨_, m, rfl, rfl, h⟩

/-! ## Completion -/

/-- Completion answers once the 65 covered bytes have been read. -/
theorem completeDataFrame_of_covered {s : State} {covered : List Byte}
    (h : readFrameBytes (paddedPage s) 0 65 = .ok covered) : completeDataFrame s = .ok (completedFrame s covered) := by
  simp only [completeDataFrame, Config.coveredLen, h]
  rfl

theorem completeAndRespond_of_covered {s : State} {covered : List Byte}
    (h : readFrameBytes (paddedPage s) 0 65 = .ok covered) :
    completeAndRespond s = .next (respond (zext16 s.fill) (completedFrame s covered)) := by
  simp only [completeAndRespond, completeDataFrame_of_covered h]
  rfl

/-- Padded pages over the same data bytes are the same in the 65 bytes the CRC covers: what stood in byte 0 and past the
data is overwritten. -/
theorem byteAt_paddedPage_withBuffer {s : State} {m : Memory}
    (h : ∀ k < s.fill.toNat, m.byteAt (1 + k) = s.fbBuf.byteAt (1 + k)) {k : Nat} (hk : k < 65) :
    (paddedPage (withBuffer s m)).byteAt k = (paddedPage s).byteAt k := by
  rw [byteAt_paddedPage, byteAt_paddedPage]
  change (if 1 + s.fill.toNat ≤ k ∧ k ≤ 64 then _ else if k = 0 then some s.page else m.byteAt k) = _
  split
  case isTrue => rfl
  case isFalse hdata =>
    split
    case isTrue => rfl
    case isFalse hzero =>
      have hbyte := h (k - 1) (by omega)
      rwa [show 1 + (k - 1) = k by omega] at hbyte

/-- Two pages with the same data bytes, all written, complete to the same frame. -/
theorem sameAnswer_completeAndRespond {s : State} {m : Memory} (hv : s.frameValid = false) (hpage : PageWritten s)
    (h : SameView s m) : SameAnswer (completeAndRespond s) (completeAndRespond (withBuffer s m)) := by
  obtain ⟨hwf, -, hdata⟩ := h
  have hpadded {k : Nat} (hk : k < 65) := byteAt_paddedPage_withBuffer (hdata hv) hk
  obtain ⟨t, ht⟩ := completeDataFrame_total (hpage hv)
  obtain ⟨covered, hcovered, -⟩ := completeDataFrame_ok ht
  have hcovered' : readFrameBytes (paddedPage (withBuffer s m)) 0 65 = .ok covered := by
    obtain ⟨hlength, hbytes⟩ := readFrameBytes_eq_ok.mp hcovered
    refine readFrameBytes_eq_ok.mpr ⟨hlength, fun k hk => ⟨by omega, ?_⟩⟩
    rw [hpadded (by omega), (hbytes k hk).2]
  rw [completeAndRespond_of_covered hcovered, completeAndRespond_of_covered hcovered']
  have hwf' := wf_completedFrame (s := withBuffer s m) hwf covered
  refine ⟨_, _, rfl, rfl, hwf', fun _ k hk => ?_, fun hfree => nomatch hfree⟩
  simp only [respond_fbBuf, completedFrame, byteAt_storeCrc]
  by_cases hcrc : k < 65
  · rw [hpadded hcrc]
  · obtain rfl | rfl : k = 65 ∨ k = 66 := by omega
    · rfl
    · rfl

/-! ## The commands -/

/-- FB_DATA into an open page: one more data byte, and completion if it was the 64th (41_frame.md R151). -/
theorem execFbData_open {b : Byte} {s : State} (hv : s.frameValid = false) (he : s.exhausted = false)
    (hroom : s.fill.toNat < 64) : execFbData b s =
      if s.fill + 1 = 64 then completeAndRespond (pushByte b s)
      else .next (respond (zext16 (s.fill + 1)) (pushByte b s)) := by
  have hwrite : writeFrameByte s.fbBuf (dataIndex s) b = .ok (s.fbBuf.store (dataIndex s) b) :=
    if_pos (show 1 + s.fill.toNat < 67 by omega)
  simp only [execFbData, hv, he, hwrite, Bool.false_eq_true, if_false]
  simp only [pushByte, hv, he]

theorem toNat_fill_pushByte (b : Byte) {s : State} (hroom : s.fill.toNat < 64) :
    (pushByte b s).fill.toNat = s.fill.toNat + 1 := by
  unfold pushByte
  bv_omega

/-- A byte pushed into two pages with the same data bytes leaves them with the same data bytes. -/
theorem sameView_pushByte (b : Byte) {s : State} {m : Memory} (hv : s.frameValid = false) (hroom : s.fill.toNat < 64)
    (h : SameView s m) : SameView (pushByte b s) (m.store (dataIndex s) b) := by
  obtain ⟨hwf, -, hdata⟩ := h
  refine ⟨Memory.wf_store hwf (by unfold dataIndex; omega) b, fun hheld => absurd (hv.symm.trans hheld) (by decide),
    fun _ k hk => ?_⟩
  rw [toNat_fill_pushByte b hroom] at hk
  simp only [pushByte, dataIndex, Memory.byteAt_store]
  split
  case isTrue => rfl
  case isFalse hne => exact hdata hv k (by omega)

/-- A byte pushed into a page leaves its data bytes written, the 64th too. -/
theorem pageWritten_pushByte (b : Byte) {s : State} (hv : s.frameValid = false) (hroom : s.fill.toNat < 64)
    (h : PageWritten s) : PageWritten (pushByte b s) := by
  intro _ k hk
  rw [toNat_fill_pushByte b hroom] at hk
  simp only [pushByte, dataIndex, Memory.byteAt_store]
  split
  case isTrue => rfl
  case isFalse hne => exact h hv k (by omega)

theorem loadedSentinel_withBuffer (s : State) (m : Memory) : loadedSentinel (withBuffer s m) =
    withBuffer (loadedSentinel s) (loadedSentinel (withBuffer s m)).fbBuf := by
  simp only [loadedSentinel, withBuffer]

section Commands

variable {s : State} {m : Memory} (hs : Legal s) (h : SameView s m)
include h

theorem sameAnswer_execReadReg (r : Nat) : SameAnswer (execReadReg r s) (execReadReg r (withBuffer s m)) := by
  have hread : readRegister (withBuffer s m) r = readRegister s r := rfl
  unfold execReadReg
  rw [hread]
  cases readRegister s r with
  | none => exact sameAnswer_reject _ h
  | some v => exact sameAnswer_respond v h

theorem sameAnswer_execFbAck : SameAnswer (execFbAck s) (execFbAck (withBuffer s m)) := by
  cases hv : s.frameValid with
  | false => simpa [execFbAck, withBuffer, hv] using sameAnswer_reject .noFrame h
  | true =>
    have hempty : SameView { s with frameValid := false, frameKind := .data, fill := 0 } m :=
      sameView_of_empty h.1 rfl rfl
    simpa [execFbAck, withBuffer, hv] using sameAnswer_respond 0 hempty

theorem sameAnswer_execFbSentinel : SameAnswer (execFbSentinel s) (execFbSentinel (withBuffer s m)) := by
  have hsentinel : SameView (loadedSentinel s) (loadedSentinel (withBuffer s m)).fbBuf := by
    refine ⟨wf_loadedSentinel (s := withBuffer s m) h.1, fun _ k hk => ?_, fun hfree => nomatch hfree⟩
    simp only [loadedSentinel, Memory.byteAt_storeList_replicate, if_pos (show 0 ≤ k ∧ k < 0 + 67 by omega)]
  rw [execFbSentinel_eq, execFbSentinel_eq]
  change SameAnswer _ (if s.frameValid then _ else if s.fill ≠ 0 then _ else _)
  split
  · exact sameAnswer_reject _ h
  · split
    · exact sameAnswer_reject _ h
    · rw [loadedSentinel_withBuffer]
      exact sameAnswer_respond 0 hsentinel

include hs

theorem sameAnswer_execFbData (b : Byte) : SameAnswer (execFbData b s) (execFbData b (withBuffer s m)) := by
  cases hv : s.frameValid with
  | true => simpa [execFbData, withBuffer, hv] using sameAnswer_reject .framePending h
  | false =>
    cases he : s.exhausted with
    | true => simpa [execFbData, withBuffer, hv, he] using sameAnswer_reject .streamExhausted h
    | false =>
      obtain ⟨-, -, hroom, -⟩ := openPage_of_legal hs hv
      obtain ⟨-, -, -, hpage⟩ := hs
      have hview := sameView_pushByte b hv hroom h
      rw [execFbData_open hv he hroom, execFbData_open (s := withBuffer s m) hv he hroom]
      change SameAnswer _ (if s.fill + 1 = 64 then _ else _)
      split
      · exact sameAnswer_completeAndRespond hv (pageWritten_pushByte b hv hroom hpage) hview
      · exact sameAnswer_respond _ hview

theorem sameAnswer_execFbEnd : SameAnswer (execFbEnd s) (execFbEnd (withBuffer s m)) := by
  obtain ⟨-, -, -, hpage⟩ := hs
  unfold execFbEnd
  change SameAnswer _ (if s.frameValid then _ else if s.fill = 0 then _ else _)
  split
  case isTrue => exact sameAnswer_reject _ h
  case isFalse hfree =>
    split
    · exact sameAnswer_respond (s := { s with exhausted := true }) 0 h
    · exact sameAnswer_completeAndRespond (Bool.eq_false_iff.mpr hfree) hpage h

theorem sameAnswer_execFbRead (k : Nat) : SameAnswer (execFbRead k s) (execFbRead k (withBuffer s m)) := by
  obtain ⟨-, -, hwritten, -⟩ := hs
  have ⟨_, hheld, _⟩ := h
  unfold execFbRead
  change SameAnswer _ (if !legalIndex k then _ else if !s.frameValid then _ else
    match readFrameByte m k with | .error f => _ | .ok b => _)
  split
  case isTrue => exact sameAnswer_reject _ h
  case isFalse hindex =>
    split
    case isTrue => exact sameAnswer_reject _ h
    case isFalse hvalid =>
      have hk : k < 67 := by simpa [legalIndex, Nat.lt_succ_iff] using hindex
      have hv : s.frameValid = true := by simpa using hvalid
      obtain ⟨b, hb⟩ := Option.isSome_iff_exists.mp (hwritten hv k hk)
      rw [readFrameByte_eq_ok.mpr ⟨hk, hb⟩, readFrameByte_eq_ok.mpr ⟨hk, (hheld hv k hk).trans hb⟩]
      exact sameAnswer_respond _ h

/-- Every command answers alike over two buffers of the same view. -/
theorem sameAnswer_exec (i : Instr) : SameAnswer (exec i s) (exec i (withBuffer s m)) := by
  cases i with
  | reset => exact ⟨_, m, rfl, rfl, sameView_of_empty h.1 rfl rfl⟩
  | readReg r => exact sameAnswer_execReadReg h r
  | fbData b => exact sameAnswer_execFbData hs h b
  | fbEnd => exact sameAnswer_execFbEnd hs h
  | fbRead k => exact sameAnswer_execFbRead hs h k
  | fbAck => exact sameAnswer_execFbAck h
  | fbSentinel => exact sameAnswer_execFbSentinel h
  | clrErr | crcClear | crcByte | crcFinish | pmFeed | pmClear => exact ⟨_, m, rfl, rfl, h⟩

/-- Every step answers alike over two buffers of the same view. -/
theorem sameAnswer_step : SameAnswer (step s) (step (withBuffer s m)) := by
  cases hcommands : s.commands with
  | nil =>
    rw [step_of_commands_nil hcommands, step_of_commands_nil (s := withBuffer s m) hcommands]
    exact ⟨s, m, rfl, rfl, h⟩
  | cons w rest =>
    cases hdecode : decode w with
    | ok i =>
      rw [stepRunsTheDecodedCommand s w rest i hcommands hdecode,
        stepRunsTheDecodedCommand (withBuffer s m) w rest i hcommands hdecode]
      exact sameAnswer_exec (legal_withCommands hs rest) h i
    | error e =>
      have hissued : withCommands s (w :: rest) = s := by
        rw [← hcommands]
        rfl
      rw [← hissued]
      change SameAnswer _ (step (withCommands (withBuffer s m) (w :: rest)))
      rw [step_of_decode_error hdecode, step_of_decode_error hdecode, ← reject_eq_afterReject, ← reject_eq_afterReject]
      exact sameAnswer_reject _ (s := withCommands s rest) h

end Commands

/-- Settles O54, by induction on the number of steps: a step answers alike, and keeps the states legal and the view the
same. -/
theorem unwrittenBufferIsUnobservable : Obligations.UnwrittenBufferIsUnobservable := by
  intro n
  induction n with
  | zero => exact fun s m _ h => ⟨s, withBuffer s m, rfl, rfl, rfl, h⟩
  | succ n ih =>
    intro s m hs h
    obtain ⟨s', m', hstep, hstep', hview⟩ := sameAnswer_step hs h
    obtain ⟨t, u, ht, hu, hsame⟩ := ih s' m' (stepKeepsStatesLegal s s' hs hstep) hview
    exact ⟨t, u, (run_succ_of_next hstep n).trans ht, (run_succ_of_next hstep' n).trans hu, hsame⟩

end Sys2Proof.Proofs
end

section
/-! PROOFS. The command word (30_encoding.md R90 to R95): the three outcomes of decoding, each with the words it is for, and
the step each of them makes. -/

namespace Sys2Proof.Proofs

open Sys2Proof.Machine Sys2Proof.Safety

/-! ## The fields of a word -/

theorem toNat_opField (w : Word) : (opField w).toNat = w.toNat / 256 := by
  simp [opField, Nat.shiftRight_eq_div_pow]
  omega

theorem toNat_operandField (w : Word) : (operandField w).toNat = w.toNat % 256 := by
  unfold operandField
  simp

theorem opField_encode (i : Instr) : opField (encode i) = i.opcode := opField_commandWord _ _

theorem operandField_encode (i : Instr) : operandField (encode i) = i.operandByte := operandField_commandWord _ _

theorem toNat_encode_div (i : Instr) : (encode i).toNat / 256 = i.opcode.toNat := by
  rw [← toNat_opField, opField_encode]

theorem toNat_encode_mod (i : Instr) : (encode i).toNat % 256 = i.operandByte.toNat := by
  rw [← toNat_operandField, operandField_encode]

/-- A word with the two fields of a command is the command's word. -/
theorem encode_eq_of_fields {i : Instr} {w : Word} (hop : opField w = i.opcode) (hoperand : operandField w = i.operandByte) :
    encode i = w := by
  rw [← commandWord_fields w, hop, hoperand]
  rfl

/-! ## The outcomes of decoding -/

/-- `Decoded w r`: what the rule of 30_encoding.md R94 lets decoding answer on the word `w`. -/
inductive Decoded (w : Word) : Except DecodeError Instr → Prop
  /-- The opcode is none of the thirteen. -/
  | illegalOpcode : w.toNat / 256 ∉ bareOpcodes ++ operandOpcodes → Decoded w (.error .illegalOpcode)
  /-- An operand where the opcode takes none. -/
  | nonzeroOperand : w.toNat / 256 ∈ bareOpcodes → w.toNat % 256 ≠ 0 → Decoded w (.error .nonzeroOperand)
  /-- The word of a well-formed command. -/
  | command {i : Instr} : w.toNat / 256 ∈ operandOpcodes ∨ (w.toNat / 256 ∈ bareOpcodes ∧ w.toNat % 256 = 0) →
      i.wellFormed = true → encode i = w → Decoded w (.ok i)

/-- The arm of an opcode without operand. -/
theorem decoded_decodeBare {w : Word} {i : Instr} {op : Byte} (hop : opField w = op) (hopcode : i.opcode = op)
    (hbare : op.toNat ∈ bareOpcodes) (hwf : i.wellFormed = true) (hzero : i.operandByte = 0) :
    Decoded w (decodeBare (operandField w) i) := by
  rw [← hop, toNat_opField] at hbare
  have hmod := toNat_operandField w
  unfold decodeBare
  split
  case isTrue hx =>
    rw [hx] at hmod
    exact .command (.inr ⟨hbare, hmod.symm⟩) hwf (encode_eq_of_fields (hop.trans hopcode.symm) (hx.trans hzero.symm))
  case isFalse hx => exact .nonzeroOperand hbare fun h => hx (BitVec.eq_of_toNat_eq (hmod.trans h))

/-- The arm of an opcode with an operand. -/
theorem decoded_operand {w : Word} {i : Instr} {op : Byte} (hop : opField w = op) (hopcode : i.opcode = op)
    (hoperand : op.toNat ∈ operandOpcodes) (hwf : i.wellFormed = true) (hx : i.operandByte = operandField w) :
    Decoded w (.ok i) := by
  rw [← hop, toNat_opField] at hoperand
  exact .command (.inl hoperand) hwf (encode_eq_of_fields (hop.trans hopcode.symm) hx.symm)

/-- Decoding answers what R94 says, on every word. -/
theorem decoded_decode (w : Word) : Decoded w (decode w) := by
  have hx : BitVec.ofNat 8 (operandField w).toNat = operandField w := by simp
  have hlt := decide_eq_true (operandField w).isLt
  unfold decode
  dsimp only
  split
  case h_1 hop => exact decoded_decodeBare (i := .reset) hop rfl (by decide) rfl rfl
  case h_2 hop => exact decoded_decodeBare (i := .clrErr) hop rfl (by decide) rfl rfl
  case h_3 hop => exact decoded_operand (i := .readReg _) hop rfl (by decide) hlt hx
  case h_4 hop => exact decoded_decodeBare (i := .crcClear) hop rfl (by decide) rfl rfl
  case h_5 hop => exact decoded_operand (i := .crcByte _) hop rfl (by decide) rfl rfl
  case h_6 hop => exact decoded_decodeBare (i := .crcFinish) hop rfl (by decide) rfl rfl
  case h_7 hop => exact decoded_operand (i := .fbData _) hop rfl (by decide) rfl rfl
  case h_8 hop => exact decoded_decodeBare (i := .fbEnd) hop rfl (by decide) rfl rfl
  case h_9 hop => exact decoded_operand (i := .fbRead _) hop rfl (by decide) hlt hx
  case h_10 hop => exact decoded_decodeBare (i := .fbAck) hop rfl (by decide) rfl rfl
  case h_11 hop => exact decoded_decodeBare (i := .fbSentinel) hop rfl (by decide) rfl rfl
  case h_12 hop => exact decoded_operand (i := .pmFeed _) hop rfl (by decide) rfl rfl
  case h_13 hop => exact decoded_decodeBare (i := .pmClear) hop rfl (by decide) rfl rfl
  case h_14 =>
    refine .illegalOpcode fun hmem => ?_
    rw [← toNat_opField] at hmem
    simp only [bareOpcodes, operandOpcodes, List.cons_append, List.nil_append, List.mem_cons, List.not_mem_nil,
      or_false, imp_false] at *
    bv_omega

/-! ## Which words have which outcome -/

theorem not_mem_bareOpcodes_of_mem_operandOpcodes : ∀ op ∈ operandOpcodes, op ∉ bareOpcodes := by decide

theorem decode_eq_illegalOpcode_iff (w : Word) :
    decode w = .error .illegalOpcode ↔ w.toNat / 256 ∉ bareOpcodes ++ operandOpcodes := by
  have h := decoded_decode w
  generalize decode w = r at h
  cases h with
  | illegalOpcode hnone => exact iff_of_true rfl hnone
  | nonzeroOperand hbare _ => exact iff_of_false nofun (not_not_intro (List.mem_append_left _ hbare))
  | command hmem _ _ =>
    refine iff_of_false nofun (not_not_intro (List.mem_append.mpr ?_))
    exact hmem.symm.imp And.left id

theorem decode_eq_nonzeroOperand_iff (w : Word) :
    decode w = .error .nonzeroOperand ↔ w.toNat / 256 ∈ bareOpcodes ∧ w.toNat % 256 ≠ 0 := by
  have h := decoded_decode w
  generalize decode w = r at h
  cases h with
  | illegalOpcode hnone => exact iff_of_false nofun fun h => hnone (List.mem_append_left _ h.1)
  | nonzeroOperand hbare hx => exact iff_of_true rfl ⟨hbare, hx⟩
  | command hmem _ _ =>
    refine iff_of_false nofun fun ⟨hbare, hx⟩ => ?_
    rcases hmem with hoperand | ⟨-, hzero⟩
    · exact absurd hbare (not_mem_bareOpcodes_of_mem_operandOpcodes _ hoperand)
    · exact hx hzero

/-- The words that decode are the words of well-formed commands. -/
theorem decode_eq_ok {w : Word} {i : Instr} (h : decode w = .ok i) : i.wellFormed = true ∧ encode i = w := by
  have hdecoded := decoded_decode w
  rw [h] at hdecoded
  cases hdecoded with
  | command _ hwf hencode => exact ⟨hwf, hencode⟩

/-- A word whose opcode is a command's, with an operand only where the command takes one, decodes. -/
theorem decode_ok_of_opcode {w : Word}
    (hmem : w.toNat / 256 ∈ operandOpcodes ∨ (w.toNat / 256 ∈ bareOpcodes ∧ w.toNat % 256 = 0)) :
    ∃ i, decode w = .ok i := by
  have h := decoded_decode w
  generalize decode w = r at h
  cases h with
  | illegalOpcode hnone => exact absurd (List.mem_append.mpr (hmem.symm.imp And.left id)) hnone
  | nonzeroOperand hbare hx =>
    rcases hmem with hoperand | ⟨-, hzero⟩
    · exact absurd hbare (not_mem_bareOpcodes_of_mem_operandOpcodes _ hoperand)
    · exact absurd hzero hx
  | @command i _ _ _ => exact ⟨i, rfl⟩

/-- Settles O1: the decoder reads back the opcode and the operand byte of the command. -/
theorem decodeOfEncodeIsTheCommand : Obligations.DecodeOfEncodeIsTheCommand :=
  fun _ hi => decode_encode hi

/-- Settles O2, by the outcomes of decoding. -/
theorem encodeOfDecodeIsTheWord : Obligations.EncodeOfDecodeIsTheWord :=
  fun _ _ => decode_eq_ok

/-- Settles O3: the two failing checks are the two errors of decoding, and a word that passes both is a command's. -/
theorem decodeChecksOpcodeThenOperand : Obligations.DecodeChecksOpcodeThenOperand := by
  intro w
  refine ⟨decode_eq_illegalOpcode_iff w, decode_eq_nonzeroOperand_iff w, fun hnone => ?_, fun hbare hx => ?_, fun hmem => ?_⟩
  · exact step_of_decode_error ((decode_eq_illegalOpcode_iff w).mpr hnone)
  · exact step_of_decode_error ((decode_eq_nonzeroOperand_iff w).mpr ⟨hbare, hx⟩)
  · obtain ⟨i, hi⟩ := decode_ok_of_opcode hmem
    obtain ⟨-, rfl⟩ := decode_eq_ok hi
    exact ⟨i, hi, (toNat_encode_div i).symm, (toNat_encode_mod i).symm, fun rest s =>
      stepRunsTheDecodedCommand _ _ rest i (withCommands_commands s _) hi⟩

/-! ## The reserved opcodes -/

/-- The ranges of R95 hold the opcodes that no command has. -/
theorem reservedOpcode_iff {op : Nat} (hop : op < 256) :
    reservedOpcode op = true ↔ op ∉ bareOpcodes ++ operandOpcodes := by
  simp [reservedOpcode, bareOpcodes, operandOpcodes]
  omega

theorem reservedOpcode_iff_decode (w : Word) :
    reservedOpcode (w.toNat / 256) = true ↔ decode w = .error .illegalOpcode := by
  have hop : w.toNat / 256 < 256 := toNat_opField w ▸ (opField w).isLt
  rw [reservedOpcode_iff hop, decode_eq_illegalOpcode_iff]

/-- Settles O4: the reserved words are the illegal ones, and both errors of decoding are rejects. -/
theorem reservedWordsAreRejected : Obligations.ReservedWordsAreRejected := by
  refine ⟨by decide +kernel, reservedOpcode_iff_decode, fun w rest s hreserved => ?_, fun w rest s hbare hx => ?_⟩
  · exact step_of_decode_error ((reservedOpcode_iff_decode w).mp hreserved) rest s
  · exact step_of_decode_error ((decode_eq_nonzeroOperand_iff w).mpr ⟨hbare, hx⟩) rest s

/-- Settles O5: each of the words is the word of a well-formed command. -/
theorem opcodeMapWordsDecode : Obligations.OpcodeMapWordsDecode :=
  ⟨decode_encode (i := .reset) rfl, decode_encode (i := .clrErr) rfl, decode_encode (i := .readReg 2) rfl,
    decode_encode (i := .crcClear) rfl, decode_encode (i := .crcByte 0x31) rfl, decode_encode (i := .crcFinish) rfl,
    decode_encode (i := .fbData 0xAB) rfl, decode_encode (i := .fbEnd) rfl, decode_encode (i := .fbRead 66) rfl,
    decode_encode (i := .fbAck) rfl, decode_encode (i := .fbSentinel) rfl, decode_encode (i := .pmFeed 0x4F) rfl,
    decode_encode (i := .pmClear) rfl⟩

end Sys2Proof.Proofs
end

section
/-! PROOFS. One response to each command, with the value the table of 30_encoding.md R97 names. -/

namespace Sys2Proof.Proofs

open Sys2Proof.Machine Sys2Proof.Safety

/-! ## One response -/

/-- A reject gives one response, whose code is an error's, so a claim about code 0 asks nothing of it. -/
theorem response_of_reject (e : ErrorName) (s : State) {P : Response → Prop} :
    ∃ r, (reject e s).responses = r :: s.responses ∧ (r.code = 0 → P r) :=
  ⟨⟨e.code, 0⟩, reject_responses e s, fun h => absurd h (errorCode_ne_zero e)⟩

/-- An acceptance gives one response, with code 0 and the command's result. -/
theorem response_of_respond {s u : State} {v : Word} (hkept : u.responses = s.responses) {P : Response → Prop}
    (hP : P ⟨0, v⟩) : ∃ r, (respond v u).responses = r :: s.responses ∧ (r.code = 0 → P r) :=
  ⟨⟨0, v⟩, by rw [respond_responses, hkept], fun _ => hP⟩

/-- Whatever the command word, a step gives one response, with value 0 on a reject (60_exceptions.md R232). -/
theorem step_gives_one_response {w : Word} {rest : List Word} {s t : State}
    (h : step (withCommands s (w :: rest)) = .next t) :
    ∃ r, t.responses = r :: s.responses ∧ (r.code ≠ 0 → r.value = 0x0000) := by
  obtain ⟨e, rfl⟩ | ⟨i, v, u, -, hu, rfl⟩ := step_next h
  · exact ⟨⟨e.code, 0⟩, reject_responses e _, fun _ => rfl⟩
  · exact ⟨⟨0, v⟩, by rw [respond_responses, responses_of_accepts hu, withCommands_responses], fun hcode => absurd rfl hcode⟩

/-! ## The results that are a fill level -/

/-- FB_DATA accepted in a legal state leaves 1 to 64 data bytes in the page (41_frame.md R151). -/
theorem fill_after_fbData {s : State} (hs : Legal s) (hv : s.frameValid = false) :
    1 ≤ (s.fill + 1).toNat ∧ (s.fill + 1).toNat ≤ 64 := by
  obtain ⟨-, -, hroom, -⟩ := openPage_of_legal hs hv
  bv_omega

/-- The whole of an accepted FB_DATA: its response is the fill level it leaves. -/
theorem fbData_response {b : Byte} {s t : State} (h : exec (.fbData b) s = .next t) :
    ∃ r, t.responses = r :: s.responses ∧ (r.code = 0 →
      r.value.toNat = t.fill.toNat ∧ (Legal s → 1 ≤ t.fill.toNat ∧ t.fill.toNat ≤ 64)) := by
  obtain ⟨-, rfl⟩ | ⟨-, -, rfl⟩ | ⟨hv, -, -, -, rfl⟩ | ⟨hv, -, -, -, u, hu, rfl⟩ := execFbData_next h
  · exact response_of_reject _ s
  · exact response_of_reject _ s
  · exact response_of_respond rfl ⟨toNat_zext16 _ (by decide), fun hs => fill_after_fbData hs hv⟩
  · obtain ⟨covered, rfl⟩ := completeDataFrame_eq_completedFrame hu
    exact response_of_respond rfl ⟨toNat_zext16 _ (by decide), fun hs => fill_after_fbData hs hv⟩

/-- FB_END responds with the fill level of the page it ends, 0 for an empty one. -/
theorem fbEnd_response {s t : State} (h : exec .fbEnd s = .next t) :
    ∃ r, t.responses = r :: s.responses ∧ (r.code = 0 →
      r.value.toNat = t.fill.toNat ∧ (Legal s → t.fill.toNat ≤ 63)) := by
  have hroom : s.frameValid = false → Legal s → s.fill.toNat ≤ 63 := fun hv hs => by
    obtain ⟨-, -, hlt, -⟩ := openPage_of_legal hs hv
    omega
  obtain ⟨-, rfl⟩ | ⟨hv, hfill, rfl⟩ | ⟨hv, -, u, hu, rfl⟩ := execFbEnd_next h
  · exact response_of_reject _ s
  · exact response_of_respond rfl ⟨(congrArg BitVec.toNat hfill).symm, hroom hv⟩
  · obtain ⟨covered, rfl⟩ := completeDataFrame_eq_completedFrame hu
    exact response_of_respond rfl ⟨toNat_zext16 _ (by decide), hroom hv⟩

/-! ## The packed response -/

theorem toNat_pack (r : Response) : r.pack.toNat = r.code.toNat * 65536 + r.value.toNat := by
  have hvalue : r.value.toNat < 2 ^ 16 := r.value.isLt
  rw [Response.pack, BitVec.toNat_append, ← Nat.shiftLeft_add_eq_or_of_lt hvalue, Nat.shiftLeft_eq]

/-- Settles O49: a step by its two outcomes, and the result of each command by what the command does. -/
theorem everyCommandGivesOneResponse : Obligations.EveryCommandGivesOneResponse := by
  refine ⟨fun w rest s t h => step_gives_one_response h, fun i s t h => ?_, toNat_pack⟩
  cases i with
  | fbData b => exact fbData_response h
  | fbEnd => exact fbEnd_response h
  | readReg k =>
    obtain ⟨-, rfl⟩ | ⟨-, v, hv, rfl⟩ := execReadReg_next h
    · exact response_of_reject _ s
    · exact response_of_respond rfl hv
  | fbRead k =>
    obtain ⟨-, rfl⟩ | ⟨-, -, rfl⟩ | ⟨-, -, b, hb, rfl⟩ := execFbRead_next h
    · exact response_of_reject _ s
    · exact response_of_reject _ s
    · exact response_of_respond rfl ⟨b, hb, toNat_zext16 b (by decide)⟩
  | fbAck =>
    obtain ⟨-, rfl⟩ | ⟨-, rfl⟩ := execFbAck_next h
    · exact response_of_reject _ s
    · exact response_of_respond rfl rfl
  | fbSentinel =>
    obtain ⟨-, rfl⟩ | ⟨-, -, rfl⟩ | ⟨-, -, rfl⟩ := execFbSentinel_next h
    · exact response_of_reject _ s
    · exact response_of_reject _ s
    · exact response_of_respond rfl rfl
  | reset | clrErr | crcClear | pmClear | crcByte =>
    obtain rfl := Host.Outcome.next.inj h
    exact response_of_respond rfl rfl
  | crcFinish =>
    obtain rfl := Host.Outcome.next.inj h
    exact response_of_respond rfl ⟨rfl, rfl⟩
  | pmFeed b =>
    obtain rfl := Host.Outcome.next.inj h
    exact response_of_respond rfl (toNat_zext16 _ (by decide))

end Sys2Proof.Proofs
end

section
/-! PROOFS. The assembler (30_encoding.md R99, R100): the words of the lines it reads, and the lines it refuses. -/

namespace Sys2Proof.Proofs

open Sys2Proof.Machine Sys2Proof.Safety

/-! ## Mnemonics -/

/-- A text the assembler reads as one whole word. -/
def IsMnemonic (m : String) : Prop := m.toList.all isWordChar = true ∧ m.toList.isEmpty = false

/-- A mnemonic that stands alone on its line is read with nothing after it. -/
theorem parseLine_mnemonic_alone {m : String} (hm : IsMnemonic m) : parseLine m.toList = parseCommand m [] := by
  obtain ⟨hall, hne⟩ := hm
  have hword : ∀ c ∈ m.toList, isWordChar c = true := List.all_eq_true.mp hall
  obtain ⟨c, l, hl⟩ := List.exists_cons_of_ne_nil (List.isEmpty_eq_false_iff.mp hne)
  have hc : isWordChar c = true := hword c (by simp [hl])
  have hblank : m.toList.dropWhile isBlank = m.toList := by
    simp [hl, isBlank_eq_false_of_isWordChar hc]
  have hends : lineEnds m.toList = false := hl ▸ lineEnds_of_isWordChar hc l
  simp only [parseLine, hblank, hends, List.takeWhile_eq_self_iff.mpr hword, List.dropWhile_eq_nil_iff.mpr hword,
    String.ofList_toList, Bool.false_eq_true, if_false, List.dropWhile_nil]

theorem assembleLine_mnemonic_alone {m : String} (hm : IsMnemonic m) {is : List Instr} (h : parseCommand m [] = .ok is) :
    assembleLine m = .ok (is.map encode) := by
  rw [assembleLine, parseLine_mnemonic_alone hm, h]

theorem assembleLine_mnemonic_alone_error {m : String} (hm : IsMnemonic m) {e : AsmError} (h : parseCommand m [] = .error e) :
    assembleLine m = .error e := by
  rw [assembleLine, parseLine_mnemonic_alone hm, h]

/-- `m` names a command without operand, of opcode `op`. -/
def NamesBare (m : String) (op : Byte) : Prop :=
  IsMnemonic m ∧ ∃ i, bareMnemonic m = some [i] ∧ encode i = op ++ 0x00#8

/-- `m` names a command with an operand, of opcode `op`. -/
def NamesOperand (m : String) (op : Byte) : Prop :=
  IsMnemonic m ∧ bareMnemonic m = none ∧ ∃ f, operandMnemonic m = some f ∧ ∀ x, encode (f x) = op ++ x

theorem namesBare_of_mem_bareRows : ∀ r ∈ bareRows, NamesBare r.1 r.2 := by
  simp only [bareRows, List.forall_mem_cons]
  exact ⟨⟨⟨rfl, rfl⟩, .reset, rfl, rfl⟩, ⟨⟨rfl, rfl⟩, .clrErr, rfl, rfl⟩, ⟨⟨rfl, rfl⟩, .crcClear, rfl, rfl⟩,
    ⟨⟨rfl, rfl⟩, .crcFinish, rfl, rfl⟩, ⟨⟨rfl, rfl⟩, .fbEnd, rfl, rfl⟩, ⟨⟨rfl, rfl⟩, .fbAck, rfl, rfl⟩,
    ⟨⟨rfl, rfl⟩, .fbSentinel, rfl, rfl⟩, ⟨⟨rfl, rfl⟩, .pmClear, rfl, rfl⟩, nofun⟩

theorem encode_readReg (x : Byte) : encode (.readReg x.toNat) = 0x03#8 ++ x := by
  simp [encode, commandWord, Instr.opcode, Instr.operandByte]

theorem encode_fbRead (x : Byte) : encode (.fbRead x.toNat) = 0x22#8 ++ x := by
  simp [encode, commandWord, Instr.opcode, Instr.operandByte]

theorem namesOperand_of_mem_operandRows : ∀ r ∈ operandRows, NamesOperand r.1 r.2 := by
  simp only [operandRows, List.forall_mem_cons]
  exact ⟨⟨⟨rfl, rfl⟩, rfl, _, rfl, encode_readReg⟩, ⟨⟨rfl, rfl⟩, rfl, _, rfl, fun _ => rfl⟩,
    ⟨⟨rfl, rfl⟩, rfl, _, rfl, fun _ => rfl⟩, ⟨⟨rfl, rfl⟩, rfl, _, rfl, encode_fbRead⟩,
    ⟨⟨rfl, rfl⟩, rfl, _, rfl, fun _ => rfl⟩, nofun⟩

/-! ## Operands -/

/-- A text that begins with a character of a word. -/
def StartsWord (cs : List Char) : Prop := cs.head?.any isWordChar = true

theorem startsWord_cons {c : Char} (hc : isWordChar c = true) (cs : List Char) : StartsWord (c :: cs) := hc

/-- No blank is cut from before a word. -/
theorem dropWhile_isBlank_of_startsWord {cs : List Char} (h : StartsWord cs) : cs.dropWhile isBlank = cs := by
  cases cs with
  | nil => rfl
  | cons c cs => simp [isBlank_eq_false_of_isWordChar (c := c) h]

/-- A line goes on where a word begins. -/
theorem lineEnds_of_startsWord {cs : List Char} (h : StartsWord cs) : lineEnds cs = false := by
  cases cs with
  | nil => cases h
  | cons c cs => exact lineEnds_of_isWordChar h cs

section Operand

variable {m : String} {op : Byte} (hm : NamesOperand m op) {text w after : List Char} (htext : StartsWord text)
  (htoken : operandToken text = (w, after))
include hm htext htoken

/-- A line of a command with an operand that is read as `x`, and what follows the operand. -/
theorem assembleLine_operand {x : Byte} (hx : parseOperand (m == "READ_REG") w = .ok x) :
    assembleLine (commandLine m text) = if lineEnds after then .ok [op ++ x] else .error .extraOperand := by
  obtain ⟨⟨hall, hne⟩, hbare, f, hf, hencode⟩ := hm
  have hparse := parseCommand_operand hbare hf (lineEnds_of_startsWord htext) htoken hx
  rw [← dropWhile_isBlank_of_startsWord htext] at hparse
  cases hafter : lineEnds after with
  | true =>
    rw [hafter] at hparse
    simpa [hencode] using assembleLine_commandLine hall hne hparse
  | false =>
    rw [hafter] at hparse
    exact assembleLine_commandLine_error hall hne hparse

theorem assembleLine_operand_error {e : AsmError} (hx : parseOperand (m == "READ_REG") w = .error e) :
    assembleLine (commandLine m text) = .error e := by
  obtain ⟨⟨hall, hne⟩, hbare, f, hf, -⟩ := hm
  have hparse := parseCommand_operand_error hbare hf (lineEnds_of_startsWord htext) htoken hx
  rw [← dropWhile_isBlank_of_startsWord htext] at hparse
  exact assembleLine_commandLine_error hall hne hparse

end Operand

/-! ## Numbers as operands -/

/-- A text that stands for a number: a digit first, and only characters of a word. -/
def IsNumeral (w : List Char) : Prop :=
  (∃ c cs, w = c :: cs ∧ decimalDigit c ≠ none) ∧ ∀ c ∈ w, isWordChar c = true

theorem isNumeral_decimalText (n : Nat) : IsNumeral (decimalText n) := by
  obtain ⟨hne, hchars⟩ := decimalText_chars n
  obtain ⟨c, cs, hcons⟩ := List.exists_cons_of_ne_nil hne
  exact ⟨⟨c, cs, hcons, (hchars c (by simp [hcons])).2.2⟩, fun c hc => (hchars c hc).1⟩

theorem isNumeral_hexText (b : Byte) : IsNumeral (hexText b) :=
  ⟨⟨'0', _, rfl, by decide⟩, fun c hc => ((hexText_chars b).2 c hc).1⟩

section Numeral

variable {w : List Char} (hw : IsNumeral w)
include hw

theorem startsWord_numeral (rest : List Char) : StartsWord (w ++ rest) := by
  obtain ⟨⟨c, cs, rfl, -⟩, hword⟩ := hw
  exact startsWord_cons (hword c (by simp)) _

theorem operandToken_numeral {rest : List Char} (hrest : ∀ c, rest.head? = some c → isWordChar c = false) :
    operandToken (w ++ rest) = (w, rest) := by
  obtain ⟨⟨c, cs, rfl, hdigit⟩, hword⟩ := hw
  have hquote : (c :: cs).head? ≠ some '\'' := by
    rintro ⟨⟩
    exact hdigit rfl
  exact operandToken_word hword hquote hrest (by simp)

theorem startsWord_of_isNumeral : StartsWord w := by
  simpa using startsWord_numeral hw []

theorem operandToken_of_isNumeral : operandToken w = (w, []) := by
  simpa using operandToken_numeral hw (rest := []) nofun

theorem parseOperand_numeral (onReadReg : Bool) : parseOperand onReadReg w = parseNumber w := by
  obtain ⟨⟨c, cs, rfl, hdigit⟩, -⟩ := hw
  exact parseOperand_number onReadReg hdigit cs

variable {m : String} {op : Byte} (hm : NamesOperand m op)
include hm

theorem assembleLine_numeral {x : Byte} (hx : parseNumber w = .ok x) :
    assembleLine (commandLine m w) = .ok [op ++ x] :=
  assembleLine_operand hm (startsWord_of_isNumeral hw) (operandToken_of_isNumeral hw) ((parseOperand_numeral hw _).trans hx)

theorem assembleLine_numeral_error {e : AsmError} (hx : parseNumber w = .error e) :
    assembleLine (commandLine m w) = .error e :=
  assembleLine_operand_error hm (startsWord_of_isNumeral hw) (operandToken_of_isNumeral hw)
    ((parseOperand_numeral hw _).trans hx)

/-- After a number and a blank only the end of the line is read. -/
theorem assembleLine_numeral_blank {x : Byte} (hx : parseNumber w = .ok x) (rest : List Char) :
    assembleLine (commandLine m (w ++ ' ' :: rest)) = if lineEnds rest then .ok [op ++ x] else .error .extraOperand := by
  have hblank : ∀ c, (' ' :: rest).head? = some c → isWordChar c = false := by
    rintro _ ⟨⟩
    rfl
  rw [← lineEnds_blank rest]
  exact assembleLine_operand hm (startsWord_numeral hw _) (operandToken_numeral hw hblank)
    ((parseOperand_numeral hw _).trans hx)

end Numeral

/-! ## Other operands -/

theorem parseOperand_quoted (onReadReg : Bool) {c : Char} (hlow : 0x20 ≤ c.toNat) (hhigh : c.toNat ≤ 0x7E) :
    parseOperand onReadReg ['\'', c, '\''] = .ok (BitVec.ofNat 8 c.toNat) := by
  simp [parseOperand, isPrintable, hlow, hhigh]

/-- A quoted printable character is an operand, a blank and a semicolon too. -/
theorem assembleLine_quoted {m : String} {op : Byte} (hm : NamesOperand m op) {c : Char} (hlow : 0x20 ≤ c.toNat)
    (hhigh : c.toNat ≤ 0x7E) : assembleLine (commandLine m ['\'', c, '\'']) = .ok [op ++ BitVec.ofNat 8 c.toNat] :=
  assembleLine_operand (after := []) hm (startsWord_cons (by decide) _) rfl (parseOperand_quoted _ hlow hhigh)

/-- A register name is an operand token, and is refused on every command but READ_REG. -/
theorem registerNames_refused : ∀ name ∈ ["STATUS", "CRC_REG", "CRC_OUT", "PAGE", "ERR_CODE"],
    name.toList.head?.any isWordChar = true ∧ operandToken name.toList = (name.toList, [])
      ∧ parseOperand false name.toList = .error .regnameOutsideReadReg := by
  decide

/-! ## The commands of a line are well-formed -/

theorem wellFormed_of_bareMnemonic {m : String} {is : List Instr} (h : bareMnemonic m = some is) :
    ∀ i ∈ is, i.wellFormed = true := by
  have hread : ∀ i ∈ fbReadAll, i.wellFormed = true := by
    intro i hi
    obtain ⟨k, hk, rfl⟩ := List.mem_map.mp hi
    have hlt := List.mem_range.mp hk
    exact decide_eq_true (by omega)
  unfold bareMnemonic at h
  split at h <;> cases h
  case h_9 => exact hread
  all_goals simp [Instr.wellFormed]

theorem wellFormed_of_operandMnemonic {m : String} {f : Byte → Instr} (h : operandMnemonic m = some f) (x : Byte) :
    (f x).wellFormed = true := by
  unfold operandMnemonic at h
  split at h <;> cases h
  case h_1 | h_4 => exact decide_eq_true x.isLt
  all_goals rfl

theorem wellFormed_of_listMnemonic {m : String} {f : List Byte → List Instr} (h : listMnemonic m = some f) (d : List Byte) :
    ∀ i ∈ f d, i.wellFormed = true := by
  have hmap : ∀ {g : Byte → Instr}, (∀ b, (g b).wellFormed = true) → ∀ i ∈ d.map g, i.wellFormed = true := by
    intro g hg i hi
    obtain ⟨b, -, rfl⟩ := List.mem_map.mp hi
    exact hg b
  unfold listMnemonic at h
  split at h <;> cases h
  case h_2 =>
    simp only [crc16Commands, List.forall_mem_append, List.forall_mem_cons]
    exact ⟨⟨rfl, hmap fun _ => rfl⟩, rfl, nofun⟩
  all_goals exact hmap fun _ => rfl

/-- Whatever follows a mnemonic, the commands it is read as are well-formed. -/
theorem wellFormed_of_parseCommand {m : String} {rest : List Char} {is : List Instr} (h : parseCommand m rest = .ok is) :
    ∀ i ∈ is, i.wellFormed = true := by
  unfold parseCommand at h
  split at h
  case h_1 hbare =>
    split at h <;> cases h
    exact wellFormed_of_bareMnemonic hbare
  case h_2 hoperand =>
    split at h
    · cases h
    · split at h
      · cases h
      · split at h <;> cases h
        simpa using wellFormed_of_operandMnemonic hoperand _
  case h_3 hlist =>
    split at h
    · cases h
    · split at h <;> cases h
      exact wellFormed_of_listMnemonic hlist _
  case h_4 => cases h

/-- Every word a line gives decodes (30_encoding.md R99). -/
theorem decode_of_assembleLine {line : String} {ws : List Word} (h : assembleLine line = .ok ws) :
    ∀ w ∈ ws, ∃ i, decode w = .ok i := by
  have hwf : ∀ is, parseLine line.toList = .ok is → ∀ i ∈ is, i.wellFormed = true := by
    intro is his
    unfold parseLine at his
    dsimp only at his
    split at his
    · cases his
      exact nofun
    · exact wellFormed_of_parseCommand his
  unfold assembleLine at h
  split at h <;> cases h
  case h_2 is his =>
    intro w hw
    obtain ⟨i, hi, rfl⟩ := List.mem_map.mp hw
    exact ⟨i, decode_encode (hwf is his i hi)⟩

/-! ## The lines of single commands -/

theorem lineEnds_dropWhile_comment (c : List Char) : lineEnds ((';' :: c).dropWhile isBlank) = true := rfl

theorem assembleLine_bare {m : String} {op : Byte} (hm : NamesBare m op) :
    assembleLine m = .ok [op ++ 0x00#8] ∧ ∀ c, assembleLine (commandLine m (';' :: c)) = .ok [op ++ 0x00#8] := by
  obtain ⟨⟨hall, hne⟩, i, hi, hencode⟩ := hm
  rw [← hencode]
  exact ⟨assembleLine_mnemonic_alone ⟨hall, hne⟩ (parseCommand_bare hi rfl),
    fun c => assembleLine_commandLine hall hne (parseCommand_bare hi (lineEnds_dropWhile_comment c))⟩

theorem assembleLine_bare_operand {m : String} {op : Byte} (hm : NamesBare m op) {operand : List Char}
    (hoperand : StartsWord operand) : assembleLine (commandLine m operand) = .error .extraOperand := by
  obtain ⟨⟨hall, hne⟩, i, hi, -⟩ := hm
  refine assembleLine_commandLine_error hall hne (parseCommand_bare_error hi ?_)
  rw [dropWhile_isBlank_of_startsWord hoperand]
  exact lineEnds_of_startsWord hoperand

theorem assembleLine_operand_missing {m : String} {op : Byte} (hm : NamesOperand m op) :
    assembleLine m = .error .missingOperand ∧ ∀ c, assembleLine (commandLine m (';' :: c)) = .error .missingOperand := by
  obtain ⟨⟨hall, hne⟩, hbare, f, hf, -⟩ := hm
  exact ⟨assembleLine_mnemonic_alone_error ⟨hall, hne⟩ (parseCommand_operand_missing hbare hf rfl),
    fun c => assembleLine_commandLine_error hall hne (parseCommand_operand_missing hbare hf (lineEnds_dropWhile_comment c))⟩

/-- Settles O6, by what each form of line is read as; the register names are five lines written out. -/
theorem assemblerWritesTheListedWords : Obligations.AssemblerWritesTheListedWords := by
  refine ⟨fun r hr => assembleLine_bare (namesBare_of_mem_bareRows r hr), fun r hr x => ?_, fun r hr c hlow hhigh => ?_,
    by decide, ⟨rfl, fun c => ?_⟩, fun line ws h => decode_of_assembleLine h⟩
  · have hm := namesOperand_of_mem_operandRows r hr
    have hx := parseNumber_decimalText_byte x
    have hdecimal := isNumeral_decimalText x.toNat
    exact ⟨assembleLine_numeral hdecimal hm hx, assembleLine_numeral (isNumeral_hexText x) hm (parseNumber_hexText x),
      fun c => assembleLine_numeral_blank hdecimal hm hx (';' :: c)⟩
  · exact assembleLine_quoted (namesOperand_of_mem_operandRows r hr) hlow hhigh
  · rw [assembleLine, String.toList_ofList]
    rfl

/-- Settles O56, by what each form of line is refused for. -/
theorem assemblerRefusesMalformedLines : Obligations.AssemblerRefusesMalformedLines := by
  refine ⟨fun r hr n => ?_, fun r hr => assembleLine_operand_missing (namesOperand_of_mem_operandRows r hr),
    fun r hr x y => ?_, fun r hr n hn => ?_, fun r hr hne name hname => ?_, by decide⟩
  · exact assembleLine_bare_operand (namesBare_of_mem_bareRows r hr) (startsWord_of_isNumeral (isNumeral_decimalText n))
  · have hy := startsWord_of_isNumeral (isNumeral_decimalText y.toNat)
    rw [assembleLine_numeral_blank (isNumeral_decimalText x.toNat) (namesOperand_of_mem_operandRows r hr)
      (parseNumber_decimalText_byte x), lineEnds_of_startsWord hy]
    rfl
  · exact assembleLine_numeral_error (isNumeral_decimalText n) (namesOperand_of_mem_operandRows r hr)
      (parseNumber_decimalText_above hn)
  · obtain ⟨hstart, htoken, hrefused⟩ := registerNames_refused name hname
    rw [← beq_eq_false_iff_ne.mpr hne] at hrefused
    exact assembleLine_operand_error (namesOperand_of_mem_operandRows r hr) hstart htoken hrefused

end Sys2Proof.Proofs
end

section
/-! PROOFS. The pseudo-instructions over a byte list (30_encoding.md R100): a text that is read as a list of bytes gives
each of the four expansions of the list. -/

namespace Sys2Proof.Proofs

open Sys2Proof.Machine Sys2Proof.Safety

/-! ## Texts read as byte lists -/

/-- After a mnemonic and a blank the text is read as the bytes `d`. -/
def ReadsAs (text : List Char) (d : List Byte) : Prop := StartsWord text ∧ parseByteList text = .ok d

/-- `m` names a pseudo-instruction over a byte list, with the expansion `f`. -/
def NamesList (m : String) (f : List Byte → List Instr) : Prop :=
  IsMnemonic m ∧ bareMnemonic m = none ∧ operandMnemonic m = none ∧ listMnemonic m = some f

theorem assembleLine_list {m : String} {f : List Byte → List Instr} (hm : NamesList m f) {text : List Char} {d : List Byte}
    (h : ReadsAs text d) : assembleLine (commandLine m text) = .ok ((f d).map encode) := by
  obtain ⟨⟨hall, hne⟩, hbare, hoperand, hlist⟩ := hm
  obtain ⟨hstart, hbytes⟩ := h
  have hparse := parseCommand_list hbare hoperand hlist (lineEnds_of_startsWord hstart) hbytes
  rw [← dropWhile_isBlank_of_startsWord hstart] at hparse
  exact assembleLine_commandLine hall hne hparse

/-- The words of the four expansions of a byte list (30_encoding.md R100). -/
theorem assembleLine_expansions {text : List Char} {d : List Byte} (h : ReadsAs text d) :
    assembleLine (commandLine "CRC_BYTES" text) = .ok (d.map fun b => 0x11#8 ++ b)
    ∧ assembleLine (commandLine "CRC16" text) = .ok (0x1000 :: (d.map fun b => 0x11#8 ++ b) ++ [0x1200])
    ∧ assembleLine (commandLine "FB_BYTES" text) = .ok (d.map fun b => 0x20#8 ++ b)
    ∧ assembleLine (commandLine "PM_FEEDS" text) = .ok (d.map fun b => 0x30#8 ++ b) := by
  have hcrcBytes : (crcBytes d).map encode = d.map fun b => 0x11#8 ++ b := List.map_map
  refine ⟨?_, ?_, ?_, ?_⟩
  · rw [assembleLine_list (f := crcBytes) ⟨⟨rfl, rfl⟩, rfl, rfl, rfl⟩ h, hcrcBytes]
  · rw [assembleLine_list (f := crc16Commands) ⟨⟨rfl, rfl⟩, rfl, rfl, rfl⟩ h, ← hcrcBytes, crc16Commands, List.map_append]
    rfl
  · rw [assembleLine_list (f := fbBytes) ⟨⟨rfl, rfl⟩, rfl, rfl, rfl⟩ h, fbBytes, List.map_map]
    rfl
  · rw [assembleLine_list (f := pmFeeds) ⟨⟨rfl, rfl⟩, rfl, rfl, rfl⟩ h, pmFeeds, List.map_map]
    rfl

/-! ## Lists of numbers -/

/-- The characters of a list are those of its separator and of its items. -/
theorem mem_listText {sep : List Char} {write : Byte → List Char} {d : List Byte} {c : Char} (h : c ∈ listText sep write d) :
    c ∈ sep ∨ ∃ b, c ∈ write b := by
  unfold listText at h
  induction d with
  | nil => cases h
  | cons b d ih =>
    cases d with
    | nil => exact .inr ⟨b, by simpa using h⟩
    | cons e d =>
      rw [List.map_cons, List.map_cons, List.intercalate_cons_cons] at h
      rcases List.mem_append.mp h with h | h
      · rcases List.mem_append.mp h with h | h
        · exact .inr ⟨b, h⟩
        · exact .inl h
      · exact ih h

/-- A list begins with its first item. -/
theorem listText_cons (sep : List Char) (write : Byte → List Char) (b : Byte) (d : List Byte) :
    ∃ rest, listText sep write (b :: d) = write b ++ rest := by
  cases d with
  | nil => exact ⟨[], by simp [listText]⟩
  | cons e d => exact ⟨sep ++ listText sep write (e :: d), by simp [listText]⟩

/-- Numbers with commas between, and any blanks after each comma, are read as the bytes they stand for. -/
theorem readsAs_listText {write : Byte → List Char} (hnumeral : ∀ b, IsNumeral (write b))
    (hcomma : ∀ b, ∀ c ∈ write b, c ≠ ',') (hvalue : ∀ b, parseNumber (write b) = .ok b) (n : Nat) {d : List Byte}
    (hd : d ≠ []) : ReadsAs (listText (',' :: List.replicate n ' ') write d) d := by
  obtain ⟨b, d, rfl⟩ := List.exists_cons_of_ne_nil hd
  obtain ⟨rest, hrest⟩ := listText_cons (',' :: List.replicate n ' ') write b d
  have hquote : (listText (',' :: List.replicate n ' ') write (b :: d)).head? ≠ some '"' := by
    obtain ⟨⟨c, cs, hcons, hdigit⟩, -⟩ := hnumeral b
    rw [hrest, hcons]
    rintro ⟨⟩
    exact hdigit rfl
  have hcomment : ∀ c ∈ listText (',' :: List.replicate n ' ') write (b :: d), (c != ';') = true := by
    intro c hc
    rcases mem_listText hc with hsep | ⟨e, he⟩
    · rcases List.mem_cons.mp hsep with rfl | hblank
      · rfl
      · rw [List.eq_of_mem_replicate hblank]
        rfl
    · have hword := (hnumeral e).2 c he
      simp [isWordChar] at hword
      simpa using hword.2
  refine ⟨hrest ▸ startsWord_numeral (hnumeral b) rest, ?_⟩
  rw [parseByteList_numbers hquote hcomment]
  exact parseNumbers_listText (fun b c hc => ⟨(hnumeral b).2 c hc, hcomma b c hc⟩) hvalue n b d

theorem readsAs_decimalList (n : Nat) {d : List Byte} (hd : d ≠ []) :
    ReadsAs (listText (',' :: List.replicate n ' ') (decimalText ·.toNat) d) d :=
  readsAs_listText (fun b => isNumeral_decimalText b.toNat) (fun b c hc => ((decimalText_chars b.toNat).2 c hc).2.1)
    parseNumber_decimalText_byte n hd

theorem readsAs_hexList (n : Nat) {d : List Byte} (hd : d ≠ []) :
    ReadsAs (listText (',' :: List.replicate n ' ') hexText d) d :=
  readsAs_listText isNumeral_hexText (fun b c hc => ((hexText_chars b).2 c hc).2) parseNumber_hexText n hd

/-! ## Strings -/

theorem readsAs_string {cs : List Char} (h : ∀ c ∈ cs, c.toNat < 128 ∧ c ≠ '"') :
    ReadsAs ('"' :: cs ++ ['"']) (cs.map fun c => BitVec.ofNat 8 c.toNat) :=
  ⟨startsWord_cons (by decide) _, parseByteList_string h⟩

/-! ## The expansions -/

theorem assembleLine_fbReadAll : assembleLine "FB_READ_ALL" = .ok ((List.range 67).map fun k => 0x22#8 ++ BitVec.ofNat 8 k) := by
  rw [assembleLine_mnemonic_alone ⟨rfl, rfl⟩ (parseCommand_bare (is := fbReadAll) rfl rfl), fbReadAll, List.map_map]
  rfl

/-- Settles O57: each of the texts is read as the bytes it is written for. -/
theorem pseudoInstructionsGiveTheirExpansion : Obligations.PseudoInstructionsGiveTheirExpansion := by
  refine ⟨fun d hd text htext => ?_, fun cs hcs => ?_, assembleLine_fbReadAll⟩
  · have hreads : ReadsAs text d := by
      simp only [List.mem_cons, List.not_mem_nil, or_false] at htext
      rcases htext with rfl | rfl | rfl | rfl
      · exact readsAs_decimalList 0 hd
      · exact readsAs_decimalList 1 hd
      · exact readsAs_hexList 0 hd
      · exact readsAs_hexList 1 hd
    exact assembleLine_expansions hreads
  · simpa only [List.map_map, Function.comp_def] using assembleLine_expansions (readsAs_string hcs)

end Sys2Proof.Proofs
end

section
/-! PROOFS. The arithmetic of the CRC (40_crc.md sections 1 and 2): the step as shift and exclusive or, the bits of a byte in
the order they enter, linearity, and masking after each byte. -/

namespace Sys2Proof.Proofs

open Sys2Proof.Machine

/-! ## The step -/

/-- The bit that enters stands where the shift left a 0 (40_crc.md R120). -/
theorem shiftLeft_or_bit (reg : Word) (bit : Bool) :
    (reg <<< 1) ||| zext16 (BitVec.ofBool bit) = (reg <<< 1) ^^^ zext16 (BitVec.ofBool bit) := by
  refine BitVec.eq_of_getLsbD_eq fun k _ => ?_
  cases k <;> simp [zext16]

/-- The step in exclusive or alone (40_crc.md R126). -/
theorem crcStep_eq_xor (reg : Word) (bit : Bool) :
    crcStep reg bit
      = (reg <<< 1) ^^^ zext16 (BitVec.ofBool bit) ^^^ (if reg.getLsbD 15 then Config.crcPoly else 0) := by
  unfold crcStep
  rw [shiftLeft_or_bit]
  split <;> simp

theorem toNat_shiftLeft_or_bit (reg : Word) (bit : Bool) :
    ((reg <<< 1) ||| zext16 (BitVec.ofBool bit)).toNat = (2 * reg.toNat + bit.toNat) % 65536 := by
  have hdisjoint : (reg <<< 1) &&& zext16 (BitVec.ofBool bit) = 0 := by
    refine BitVec.eq_of_getLsbD_eq fun k _ => ?_
    cases k <;> simp [zext16]
  rw [← BitVec.add_eq_or_of_and_eq_zero _ _ hdisjoint, BitVec.toNat_add, Safety.toNat_zext16 _ (by decide),
    BitVec.toNat_shiftLeft, BitVec.toNat_ofBool, Nat.shiftLeft_eq]
  omega

theorem getLsbD_15_iff (reg : Word) : reg.getLsbD 15 = true ↔ 32768 ≤ reg.toNat := by
  have hmsb : reg.getLsbD 15 = reg.msb := (BitVec.msb_eq_getLsbD_last reg).symm
  rw [hmsb, BitVec.msb_eq_decide]
  simp

/-- Settles O10: the shift and the new bit are a sum, and bit 15 is set from 32768 on. -/
theorem augmentedStepShiftsThenReduces : Obligations.AugmentedStepShiftsThenReduces := by
  intro reg bit
  have hshift := toNat_shiftLeft_or_bit reg bit
  unfold crcStep
  by_cases hbit : reg.getLsbD 15 = true
  · rw [if_pos hbit, if_pos ((getLsbD_15_iff reg).mp hbit), BitVec.toNat_xor, hshift]
    rfl
  · rw [if_neg hbit, if_neg (mt (getLsbD_15_iff reg).mpr hbit), hshift]
    exact (Nat.xor_zero _).symm

/-! ## The bits of a byte -/

/-- The low `n` bits of `v`, the least significant first: the order bits enter the CRC in (40_crc.md R121). -/
def lowBits {w : Nat} (n : Nat) (v : BitVec w) : List Bool := (List.range n).map v.getLsbD

theorem lowBits_succ {w : Nat} (n : Nat) (v : BitVec w) : lowBits (n + 1) v = lowBits n v ++ [v.getLsbD n] := by
  simp [lowBits, List.range_succ]

/-- The bits of the reflection from bit 7 down are the bits of the byte from bit 0 up. -/
theorem map_reflect8_eq_lowBits (b : Byte) : [7, 6, 5, 4, 3, 2, 1, 0].map (reflect8 b).getLsbD = lowBits 8 b := by
  have hdown : [7, 6, 5, 4, 3, 2, 1, 0] = (List.range 8).map (7 - ·) := rfl
  rw [hdown, List.map_map]
  refine List.map_congr_left fun k hk => ?_
  have hk : k < 8 := List.mem_range.mp hk
  rw [Function.comp_apply, Safety.getLsbD_reflect8 b (by omega), show 7 - (7 - k) = k by omega]

theorem crcByte_eq_foldl_lowBits (reg : Word) (b : Byte) : crcByte reg b = (lowBits 8 b).foldl crcStep reg := by
  rw [← map_reflect8_eq_lowBits, List.foldl_map]
  rfl

/-- Settles O11: bit 7 − j of the reflection is bit j of the byte. -/
theorem crcByteTakesLowBitFirst : Obligations.CrcByteTakesLowBitFirst := by
  intro reg b
  rw [crcByte_eq_foldl_lowBits, lowBits, List.foldl_map]

/-! ## Masking after each byte -/

/-- Bits above bit 15 never come back into the low 16, and bit 15 before the shift decides either way (40_crc.md R124). -/
theorem ofNat_unmaskedStep (n : Nat) (bit : Bool) :
    BitVec.ofNat 16 (unmaskedStep n bit) = crcStep (BitVec.ofNat 16 n) bit := by
  have hbit : BitVec.ofNat 16 bit.toNat = zext16 (BitVec.ofBool bit) := by cases bit <;> rfl
  have hshift : BitVec.ofNat 16 (n <<< 1) = BitVec.ofNat 16 n <<< 1 := by
    refine BitVec.eq_of_toNat_eq ?_
    simp [Nat.shiftLeft_eq]
  have htop : (BitVec.ofNat 16 n).getLsbD 15 = n.testBit 15 := by
    rw [BitVec.getLsbD_ofNat]
    rfl
  unfold unmaskedStep crcStep
  rw [htop]
  split <;> simp only [BitVec.ofNat_xor, BitVec.ofNat_or, hbit, hshift, BitVec.ofNat_toNat, BitVec.setWidth_eq]

/-- Settles O12: reduction to 16 bits commutes with every step, so with the steps of a byte. -/
theorem maskingAfterEachByteIsExact : Obligations.MaskingAfterEachByteIsExact := by
  intro reg b
  have hfold := List.foldl_hom (l := [7, 6, 5, 4, 3, 2, 1, 0]) (init := reg.toNat) (BitVec.ofNat 16)
    (g₁ := fun acc j => unmaskedStep acc ((reflect8 b).getLsbD j)) (g₂ := fun acc j => crcStep acc ((reflect8 b).getLsbD j))
    (fun n _ => (ofNat_unmaskedStep n _).symm)
  rw [BitVec.ofNat_toNat, BitVec.setWidth_eq] at hfold
  rw [crcByte, hfold, BitVec.toNat_ofNat, byteMaskedCrc]

/-! ## Linearity -/

theorem reflect16_xor (p q : Word) : reflect16 (p ^^^ q) = reflect16 p ^^^ reflect16 q := by
  refine BitVec.eq_of_getLsbD_eq fun k hk => ?_
  simp only [BitVec.getLsbD_xor, Safety.getLsbD_reflect16 _ hk]

theorem zext16_ofBool_xor (a b : Bool) :
    zext16 (BitVec.ofBool (a ^^ b)) = zext16 (BitVec.ofBool a) ^^^ zext16 (BitVec.ofBool b) := by
  cases a <;> cases b <;> rfl

/-- A reduction is linear in the bit that decides it. -/
theorem ite_xor (a b : Bool) (poly : Word) :
    (if a ^^ b then poly else 0) = (if a then poly else 0) ^^^ (if b then poly else 0) := by
  cases a <;> cases b <;> simp

theorem crcStep_xor (p q : Word) (a b : Bool) : crcStep (p ^^^ q) (a ^^ b) = crcStep p a ^^^ crcStep q b := by
  simp only [crcStep_eq_xor, BitVec.shiftLeft_xor_distrib, zext16_ofBool_xor, BitVec.getLsbD_xor, ite_xor]
  ac_rfl

/-- Steps that are linear one by one are linear over inputs of equal length (40_crc.md R126). -/
theorem foldl_zipWith_xor {α : Type} {f : Word → α → Word} {add : α → α → α}
    (hf : ∀ p q a b, f (p ^^^ q) (add a b) = f p a ^^^ f q b) {as bs : List α} (hlength : as.length = bs.length)
    (p q : Word) : (List.zipWith add as bs).foldl f (p ^^^ q) = as.foldl f p ^^^ bs.foldl f q := by
  induction as generalizing bs p q with
  | nil =>
    obtain rfl : bs = [] := List.length_eq_zero_iff.mp hlength.symm
    rfl
  | cons a as ih =>
    cases bs with
    | nil => cases hlength
    | cons b bs =>
      rw [List.zipWith_cons_cons, List.foldl_cons, hf]
      exact ih (Nat.succ.inj hlength) _ _

theorem lowBits_xor (a b : Byte) : lowBits 8 (a ^^^ b) = List.zipWith xor (lowBits 8 a) (lowBits 8 b) := by
  simp [lowBits, List.range_succ]

theorem crcByte_xor (p q : Word) (a b : Byte) : crcByte (p ^^^ q) (a ^^^ b) = crcByte p a ^^^ crcByte q b := by
  simp only [crcByte_eq_foldl_lowBits, lowBits_xor]
  exact foldl_zipWith_xor crcStep_xor (as := lowBits 8 a) (bs := lowBits 8 b) rfl p q

/-- The finish feeds sixteen 0 bits and reflects (40_crc.md R122). -/
theorem crcFinish_eq_foldl (reg : Word) : crcFinish reg = reflect16 ((List.replicate 16 false).foldl crcStep reg) := rfl

theorem crcFinish_xor (p q : Word) : crcFinish (p ^^^ q) = crcFinish p ^^^ crcFinish q := by
  simp only [crcFinish_eq_foldl, ← reflect16_xor]
  have hzeros : List.replicate 16 false = List.zipWith xor (List.replicate 16 false) (List.replicate 16 false) := rfl
  rw [← foldl_zipWith_xor crcStep_xor rfl, ← hzeros]

theorem crcByte_zero : crcByte 0x0000 0x00 = 0x0000 := by decide

theorem crcFinish_zero : crcFinish 0x0000 = 0x0000 := by decide +kernel

theorem crc16_zipWith_xor {a b : List Byte} (hlength : a.length = b.length) :
    crc16 (List.zipWith (fun x y => x ^^^ y) a b) = crc16 a ^^^ crc16 b := by
  unfold crc16
  rw [← crcFinish_xor]
  exact congrArg crcFinish (foldl_zipWith_xor crcByte_xor hlength 0 0)

/-- Settles O14: the step is linear, and so is what steps are put together to. -/
theorem crcIsLinearOverXor : Obligations.CrcIsLinearOverXor := by
  refine ⟨crcFinish_zero, crcByte_zero, fun d => ?_, crcStep_xor, crcByte_xor, crcFinish_xor, fun _ _ => crc16_zipWith_xor⟩
  exact congrArg (fun reg => crcFinish (d.foldl crcByte reg)) crcByte_zero

end Sys2Proof.Proofs
end

section
/-! PROOFS. The direct form of the CRC (40_crc.md R125), one bit at a time: finishing turns the augmented steps into direct
ones. The residue of a frame (R132) follows, since a register fed its own bits shifts itself out. -/

namespace Sys2Proof.Proofs

open Sys2Proof.Machine Sys2Proof.Safety

/-! ## The direct step -/

theorem directStep_eq_xor (c : Word) :
    directStep c = (c >>> 1) ^^^ (if c.getLsbD 0 then Config.crcPolyReflected else 0) := by
  unfold directStep
  split <;> simp

/-- The direct form fed one bit: `directByte` one bit at a time. -/
def directBit (c : Word) (bit : Bool) : Word := directStep (c ^^^ zext16 (BitVec.ofBool bit))

/-- A bit fed to the direct form decides the reduction, and is shifted out at once. -/
theorem directBit_eq_xor (c : Word) (bit : Bool) :
    directBit c bit = (c >>> 1) ^^^ (if c.getLsbD 0 ^^ bit then Config.crcPolyReflected else 0) := by
  have hlow : (zext16 (BitVec.ofBool bit)).getLsbD 0 = bit := by cases bit <;> rfl
  have hout : zext16 (BitVec.ofBool bit) >>> 1 = 0 := by cases bit <;> rfl
  rw [directBit, directStep_eq_xor, BitVec.ushiftRight_xor_distrib, hout, BitVec.getLsbD_xor, hlow]
  simp

/-- Of a word put into the direct form only bit 0 enters in one step; the rest is shifted. -/
theorem directStep_xor (c v : Word) : directStep (c ^^^ v) = directBit c (v.getLsbD 0) ^^^ (v >>> 1) := by
  rw [directStep_eq_xor, directBit_eq_xor, BitVec.ushiftRight_xor_distrib, BitVec.getLsbD_xor]
  ac_rfl

/-- In `n` steps the low `n` bits of the word enter. -/
theorem iterate_directStep_xor (n : Nat) (c v : Word) :
    directStep^[n] (c ^^^ v) = (lowBits n v).foldl directBit c ^^^ (v >>> n) := by
  induction n with
  | zero => simp [lowBits]
  | succ n ih =>
    have hbit : (v >>> n).getLsbD 0 = v.getLsbD n := by simp
    rw [Function.iterate_succ_apply', ih, directStep_xor, hbit, lowBits_succ, List.foldl_append, BitVec.shiftRight_add]
    rfl

theorem directByte_eq_foldl_lowBits (c : Word) (b : Byte) : directByte c b = (lowBits 8 b).foldl directBit c := by
  have hlow : lowBits 8 (zext16 b) = lowBits 8 b := by
    simp [lowBits, List.range_succ, zext16]
  have hout : zext16 b >>> 8 = 0 := by
    refine BitVec.eq_of_toNat_eq ?_
    rw [BitVec.toNat_ushiftRight, toNat_zext16 b (by decide), Nat.shiftRight_eq_div_pow]
    exact Nat.div_eq_of_lt b.isLt
  have hsteps := iterate_directStep_xor 8 c (zext16 b)
  rw [hlow, hout] at hsteps
  simpa [directByte] using hsteps

/-! ## Finishing -/

theorem reflect16_shiftLeft_one (v : Word) : reflect16 (v <<< 1) = reflect16 v >>> 1 := by
  refine BitVec.eq_of_getLsbD_eq fun k hk => ?_
  rw [getLsbD_reflect16 _ hk, BitVec.getLsbD_ushiftRight, BitVec.getLsbD_shiftLeft]
  by_cases hlast : k = 15
  case pos =>
    subst hlast
    simp
  case neg =>
    have hpos : ¬15 - k < 1 := by omega
    have hlt : 15 - k < 16 := by omega
    have hindex : 15 - (1 + k) = 15 - k - 1 := by omega
    simp [getLsbD_reflect16 v (i := 1 + k) (by omega), hpos, hlt, hindex]

/-- Reflection turns the shift left into the shift right, bit 15 into bit 0, and 0x8005 into 0xA001 (40_crc.md R125). -/
theorem reflect16_crcStep_false (reg : Word) : reflect16 (crcStep reg false) = directStep (reflect16 reg) := by
  have hpoly : reflect16 (if reg.getLsbD 15 then Config.crcPoly else 0)
      = if reg.getLsbD 15 then Config.crcPolyReflected else 0 := by
    cases reg.getLsbD 15 <;> decide
  have hzero : reg <<< 1 ^^^ zext16 (BitVec.ofBool false) = reg <<< 1 := BitVec.xor_zero
  rw [crcStep_eq_xor, directStep_eq_xor, hzero, reflect16_xor, hpoly, reflect16_shiftLeft_one, getLsbD_reflect16 _ (by decide)]

/-- A 0 bit fed before the finish is one more step of it. -/
theorem crcFinish_crcStep_false (reg : Word) : crcFinish (crcStep reg false) = directStep (crcFinish reg) := by
  change reflect16 ((crcStep · false)^[16] (crcStep reg false)) = directStep (reflect16 ((crcStep · false)^[16] reg))
  rw [← reflect16_crcStep_false, ← Function.iterate_succ_apply' (crcStep · false)]
  rfl

/-- A bit fed to the augmented register is, once finished, the bit fed to the direct form. -/
theorem crcFinish_crcStep (reg : Word) (bit : Bool) : crcFinish (crcStep reg bit) = directBit (crcFinish reg) bit := by
  have hsplit : crcStep reg bit = crcStep reg false ^^^ crcStep 0 bit := by
    rw [← crcStep_xor]
    simp
  have hbit : crcFinish (crcStep 0 bit) = if bit then Config.crcPolyReflected else 0 := by
    cases bit <;> decide +kernel
  rw [hsplit, crcFinish_xor, crcFinish_crcStep_false, hbit, directStep_eq_xor, directBit_eq_xor, ite_xor]
  ac_rfl

theorem crcFinish_crcByte (reg : Word) (b : Byte) : crcFinish (crcByte reg b) = directByte (crcFinish reg) b := by
  rw [crcByte_eq_foldl_lowBits, directByte_eq_foldl_lowBits]
  exact (List.foldl_hom crcFinish fun c bit => (crcFinish_crcStep c bit).symm).symm

/-- Settles O13: the finish carries the register of every byte over to the direct form, and 0 to 0. -/
theorem crcEqualsDirectForm : Obligations.CrcEqualsDirectForm := by
  intro d
  have hfold := List.foldl_hom (l := d) (init := Config.crcInit) crcFinish fun c b => (crcFinish_crcByte c b).symm
  rw [crc16, ← hfold]
  exact congrArg (d.foldl directByte ·) crcFinish_zero

/-! ## The residue -/

/-- A register fed its own bits only shifts: no step reduces. -/
theorem foldl_directBit_lowBits_self (n : Nat) (c : Word) : (lowBits n c).foldl directBit c = c >>> n := by
  induction n with
  | zero => simp [lowBits]
  | succ n ih =>
    have hbit : (c >>> n).getLsbD 0 = c.getLsbD n := by simp
    rw [lowBits_succ, List.foldl_append, ih, List.foldl_cons, List.foldl_nil, directBit_eq_xor, hbit, BitVec.shiftRight_add]
    simp

/-- A word sent low byte first enters by its bits in order (20_memory.md R63, R64). -/
theorem lowBits_lowByte_append_highByte (c : Word) : lowBits 8 (lowByte c) ++ lowBits 8 (highByte c) = lowBits 16 c := by
  simp [lowBits, List.range_succ, lowByte, highByte]

theorem crc16_append_crc16 (d : List Byte) : crc16 (d ++ [lowByte (crc16 d), highByte (crc16 d)]) = 0x0000 := by
  generalize hc : crc16 d = c
  have hdirect : d.foldl directByte 0 = c := (crcEqualsDirectForm d).symm.trans hc
  calc crc16 (d ++ [lowByte c, highByte c])
      = directByte (directByte c (lowByte c)) (highByte c) := by
        rw [crcEqualsDirectForm, crc16Direct, List.foldl_append, hdirect]
        rfl
    _ = (lowBits 16 c).foldl directBit c := by
        rw [directByte_eq_foldl_lowBits, directByte_eq_foldl_lowBits, ← List.foldl_append, lowBits_lowByte_append_highByte]
    _ = 0 := by
        rw [foldl_directBit_lowBits_self]
        exact BitVec.ushiftRight_eq_zero le_rfl

/-- The 67 bytes of a sound held data frame are the 65 the CRC covers and that CRC, low byte first (41_frame.md R150). -/
theorem readFrameBytes_of_dataFrameSound {s : State} (hs : DataFrameSound s) (hv : s.frameValid = true)
    (hkind : s.frameKind = .data) :
    ∃ covered, readFrameBytes s.fbBuf 0 67 = .ok (covered ++ [lowByte (crc16 covered), highByte (crc16 covered)]) := by
  obtain ⟨-, -, covered, hcovered, hlow, hhigh⟩ := hs hv hkind
  obtain ⟨hlength, hbytes⟩ := readFrameBytes_eq_ok.mp hcovered
  refine ⟨covered, readFrameBytes_eq_ok.mpr ⟨by simp [hlength], fun k hlt => ⟨by omega, ?_⟩⟩⟩
  by_cases h65 : k < 65
  · rw [(hbytes k h65).2, List.getElem?_append_left (by omega)]
  · rw [List.getElem?_append_right (by omega), hlength]
    obtain rfl | rfl : k = 65 ∨ k = 66 := by omega
    · exact hlow
    · exact hhigh

/-- Settles O16: the CRC appended shifts itself out; a held data frame is a message with its CRC; the sentinel is computed. -/
theorem appendedCrcLeavesZeroResidue : Obligations.AppendedCrcLeavesZeroResidue := by
  refine ⟨crc16_append_crc16, fun s ⟨hdata, _⟩ hv hkind => ?_, by decide +kernel⟩
  obtain ⟨covered, hread⟩ := readFrameBytes_of_dataFrameSound hdata hv hkind
  exact ⟨_, hread, crc16_append_crc16 covered⟩

end Sys2Proof.Proofs
end

section
/-! PROOFS. The commands of the CRC unit (40_crc.md section 3), one by one and along a run with commands of other units between
them. -/

namespace Sys2Proof.Proofs

open Sys2Proof.Machine Sys2Proof.Safety

/-! ## The commands -/

/-- A command word without operand decodes with operand byte 0 alone (30_encoding.md R94). -/
theorem decode_commandWord_bare {i : Instr} (hbare : i.opcode.toNat ∈ bareOpcodes) (x : Byte) :
    decode (commandWord i.opcode x) = if x = 0 then .ok i else .error .nonzeroOperand := by
  simp only [decode, opField_commandWord, operandField_commandWord]
  cases i with
  | readReg | crcByte | fbData | fbRead | pmFeed => exact absurd hbare (by simp [Instr.opcode, bareOpcodes])
  | _ => rfl

/-- Settles O17: the word is that of a command without operand, and the effect is the command's definition. -/
theorem crcClearStartsAMessage : Obligations.CrcClearStartsAMessage :=
  ⟨decode_commandWord_bare (i := .crcClear) (by decide), fun _ => rfl⟩

/-- Settles O18: the word is the command's, and the corner cases are computed. -/
theorem crcByteFeedsOneByte : Obligations.CrcByteFeedsOneByte :=
  ⟨fun x => decode_encode (i := .crcByte x) rfl, fun _ _ => rfl, crcByte_zero, by decide, by decide, by decide, by decide⟩

/-- The register after the bytes of the check string (40_crc.md R129). -/
theorem foldl_crcByte_checkString :
    [0x31, 0x32, 0x33, 0x34, 0x35, 0x36, 0x37, 0x38, 0x39].foldl crcByte 0x0000 = 0x0A25 := by decide +kernel

theorem crcFinish_0x0A25 : crcFinish 0x0A25 = 0xBB3D := by decide +kernel

/-- Settles O15, by the register after the nine bytes. -/
theorem crcOfCheckStringIsBB3D : Obligations.CrcOfCheckStringIsBB3D :=
  (congrArg crcFinish foldl_crcByte_checkString).trans crcFinish_0x0A25

/-- Settles O19: CRC_FINISH leaves CRC_REG, so a second one finishes the same register. -/
theorem crcFinishIsNotDestructive : Obligations.CrcFinishIsNotDestructive :=
  ⟨decode_commandWord_bare (i := .crcFinish) (by decide), fun _ => rfl, fun _ => rfl, crcFinish_zero,
    foldl_crcByte_checkString, crcFinish_0x0A25⟩

/-! ## CRC_REG along a run -/

/-- What a command other than RESET makes of CRC_REG (10_state.md R45). -/
def crcRegAfter (reg : Word) : Instr → Word
  | .crcClear => 0x0000
  | .crcByte b => crcByte reg b
  | _ => reg

theorem crcReg_of_exec {i : Instr} {s t : State} (h : exec i s = .next t) (hreset : i ≠ .reset) :
    t.crcReg = crcRegAfter s.crcReg i := by
  cases i with
  | crcClear | crcByte b => cases Host.Outcome.next.inj h; rfl
  | reset => exact absurd rfl hreset
  | _ =>
    by_contra hne
    simpa using writers_of_crcReg h hne

/-- Commands of other units leave CRC_REG, so they may be left out of its run. -/
theorem foldl_crcRegAfter_filter_cons (i : Instr) (is : List Instr) (reg : Word) :
    ((i :: is).filter isCrcUnit).foldl crcRegAfter reg
      = (is.filter isCrcUnit).foldl crcRegAfter (crcRegAfter reg i) := by
  cases i <;> rfl

/-- CRC_REG after a run without RESET depends on the commands of the CRC unit alone. -/
theorem crcReg_of_execAll {is : List Instr} {s t : State} (h : execAll is s = .next t) (hreset : .reset ∉ is) :
    t.crcReg = (is.filter isCrcUnit).foldl crcRegAfter s.crcReg := by
  induction is generalizing s with
  | nil =>
    cases Host.Outcome.next.inj h
    rfl
  | cons i is ih =>
    obtain ⟨hi, his⟩ : Instr.reset ≠ i ∧ Instr.reset ∉ is := by simpa using hreset
    obtain ⟨u, hu, hrun⟩ := execAll_cons_eq_next.mp h
    rw [ih hrun his, crcReg_of_exec hu hi.symm, foldl_crcRegAfter_filter_cons]

/-- CRC_CLEAR and the bytes leave the register `crc16` finishes. -/
theorem foldl_crcRegAfter_message (d : List Byte) (reg : Word) :
    (.crcClear :: crcBytes d).foldl crcRegAfter reg = d.foldl crcByte Config.crcInit := by
  rw [List.foldl_cons, crcBytes, List.foldl_map]
  rfl

/-! ## Runs answer -/

/-- Every command answers in a legal state: it answers alike over its own buffer, so it answers. -/
theorem exec_answers_of_legal {s : State} (hs : Legal s) (i : Instr) : ∃ t, exec i s = .next t := by
  have ⟨_, hwf, _⟩ := hs
  obtain ⟨t, -, ht, -⟩ := sameAnswer_exec hs (m := s.fbBuf) ⟨hwf, fun _ _ _ => rfl, fun _ _ _ => rfl⟩ i
  exact ⟨t, ht⟩

theorem execAll_answers_of_legal {s : State} (hs : Legal s) (is : List Instr) : ∃ t, execAll is s = .next t := by
  induction is generalizing s with
  | nil => exact ⟨s, rfl⟩
  | cons i is ih =>
    obtain ⟨u, hu⟩ := exec_answers_of_legal hs i
    obtain ⟨t, ht⟩ := ih (legal_of_exec hs hu)
    exact ⟨t, (execAll_cons_next hu).trans ht⟩

/-- Settles O20: the run answers, leaves in CRC_REG the register of the message, and CRC_FINISH finishes it. -/
theorem clearFeedFinishComputesTheCrc : Obligations.ClearFeedFinishComputesTheCrc := by
  intro d is s hs hreset hcrc
  obtain ⟨u, hrun⟩ := execAll_answers_of_legal hs is
  have hreg : crcFinish u.crcReg = crc16 d := by
    rw [crcReg_of_execAll hrun hreset, hcrc, foldl_crcRegAfter_message, crc16]
  refine ⟨respond (crc16 d) { u with crcOut := crc16 d }, ?_, rfl, rfl⟩
  rw [execAll_append_of_next hrun, ← hreg]
  rfl

end Sys2Proof.Proofs
end

section
/-! PROOFS. The frame builder's commands one by one (41_frame.md section 2): an equation for each case of each command, and the
whole command from its equations. -/

namespace Sys2Proof.Proofs

open Sys2Proof.Machine Sys2Proof.Safety

/-! ## FB_DATA -/

theorem execFbData_held (b : Byte) {s : State} (hv : s.frameValid = true) : execFbData b s = .next (afterReject 3 s) :=
  (if_pos hv).trans (congrArg Host.Outcome.next (reject_eq_afterReject .framePending s))

theorem execFbData_exhausted (b : Byte) {s : State} (hv : s.frameValid = false) (he : s.exhausted = true) :
    execFbData b s = .next (afterReject 4 s) := by
  simp only [execFbData, hv, he, Bool.false_eq_true, if_false, if_true, reject_eq_afterReject]
  rfl

theorem zext16_eq_ofNat {w : Nat} (v : BitVec w) : zext16 v = BitVec.ofNat 16 v.toNat :=
  (BitVec.ofNat_toNat 16 v).symm

/-- FB_DATA that leaves room for another byte (41_frame.md R151). -/
theorem execFbData_room (b : Byte) {s : State} (hv : s.frameValid = false) (he : s.exhausted = false)
    (hroom : s.fill.toNat < 63) :
    execFbData b s = .next (respond (BitVec.ofNat 16 (s.fill.toNat + 1)) (pushByte b s)) := by
  have h64 : s.fill + 1 ≠ 64 := fun h => by rw [fill_succ_eq_64] at h; omega
  have hfill : (s.fill + 1).toNat = s.fill.toNat + 1 := toNat_fill_pushByte b (by omega)
  rw [execFbData_open hv he (by omega), if_neg h64, zext16_eq_ofNat, hfill]

/-- FB_DATA with the 64th byte completes the page (41_frame.md R151). -/
theorem execFbData_last (b : Byte) {s : State} (hv : s.frameValid = false) (he : s.exhausted = false)
    (h63 : s.fill.toNat = 63) : execFbData b s = completeAndRespond (pushByte b s) := by
  rw [execFbData_open hv he (by omega), if_pos ((fill_succ_eq_64 s.fill).mpr h63)]

/-- An open page whose data bytes are written can be read for its CRC. -/
theorem exists_covered {s : State} (hv : s.frameValid = false) (hpage : PageWritten s) :
    ∃ covered, readFrameBytes (paddedPage s) 0 65 = .ok covered := by
  obtain ⟨t, ht⟩ := completeDataFrame_total (hpage hv)
  obtain ⟨covered, hcovered, -⟩ := completeDataFrame_ok ht
  exact ⟨covered, hcovered⟩

/-- A page of 64 bytes takes no padding. -/
theorem paddedPage_of_full {s : State} (h64 : s.fill = 64) : paddedPage s = s.fbBuf.store 0 s.page := by
  unfold paddedPage
  rw [h64]
  rfl

theorem fbData_completes (b : Byte) {s : State} (hs : Legal s) (hv : s.frameValid = false) (he : s.exhausted = false)
    (h63 : s.fill.toNat = 63) :
    ∃ covered, readFrameBytes ((s.fbBuf.store 64 b).store 0 s.page) 0 65 = .ok covered
      ∧ execFbData b s = .next { s with
          fbBuf := (((s.fbBuf.store 64 b).store 0 s.page).store 65 (lowByte (crc16 covered))).store 66
            (highByte (crc16 covered))
          page := s.page + 1
          fill := 64
          frameValid := true
          frameKind := .data
          responses := ⟨0, 0x0040⟩ :: s.responses } := by
  obtain ⟨-, -, -, hpage⟩ := hs
  have h64 : s.fill + 1 = 64 := (fill_succ_eq_64 s.fill).mpr h63
  have hpush : pushByte b s = { s with fbBuf := s.fbBuf.store 64 b, fill := 64 } := by
    rw [pushByte, dataIndex, h63, h64]
  obtain ⟨covered, hcovered⟩ := exists_covered (s := pushByte b s) hv (pageWritten_pushByte b hv (by omega) hpage)
  have hexec := (execFbData_last b hv he h63).trans (completeAndRespond_of_covered hcovered)
  have hpadded : paddedPage (pushByte b s) = (s.fbBuf.store 64 b).store 0 s.page := by
    rw [paddedPage_of_full h64, hpush]
  refine ⟨covered, hpadded ▸ hcovered, ?_⟩
  rw [hexec, completedFrame, hpadded, hpush]
  rfl

/-- Settles O22, from the equations of FB_DATA: the two rejects, a byte with room behind it, the 64th byte. -/
theorem fbDataPushesOneByte : Obligations.FbDataPushesOneByte := by
  refine ⟨fun x => decode_encode (i := .fbData x) rfl, fun b s =>
    ⟨execFbData_held b, execFbData_exhausted b, fun hv he hroom => ?_, fbData_completes b⟩⟩
  exact execFbData_room b hv he hroom

/-! ## FB_END -/

theorem execFbEnd_held {s : State} (hv : s.frameValid = true) : execFbEnd s = .next (afterReject 3 s) :=
  (if_pos hv).trans (congrArg Host.Outcome.next (reject_eq_afterReject .framePending s))

theorem execFbEnd_empty {s : State} (hv : s.frameValid = false) (hfill : s.fill.toNat = 0) :
    execFbEnd s = .next (respond 0 { s with exhausted := true }) := by
  have hzero : s.fill = 0 := BitVec.eq_of_toNat_eq hfill
  simp [execFbEnd, hv, hzero]

theorem execFbEnd_open {s : State} (hv : s.frameValid = false) (hfill : 1 ≤ s.fill.toNat) :
    execFbEnd s = completeAndRespond s := by
  have hne : s.fill ≠ 0 := fun h => by simp [h] at hfill
  exact (if_neg (Bool.eq_false_iff.mp hv)).trans (if_neg hne)

/-- FB_END on an open page of a legal state completes it (41_frame.md R152). -/
theorem execFbEnd_completes {s : State} (hs : Legal s) (hv : s.frameValid = false) (hfill : 1 ≤ s.fill.toNat) :
    ∃ covered, readFrameBytes (paddedPage s) 0 65 = .ok covered
      ∧ execFbEnd s = .next (respond (BitVec.ofNat 16 s.fill.toNat) (completedFrame s covered)) := by
  obtain ⟨-, -, -, hpage⟩ := hs
  obtain ⟨covered, hcovered⟩ := exists_covered hv hpage
  refine ⟨covered, hcovered, ?_⟩
  rw [execFbEnd_open hv hfill, completeAndRespond_of_covered hcovered, zext16_eq_ofNat]

/-! ## FB_READ -/

theorem execFbRead_badIndex {i : Nat} (s : State) (hi : 66 < i) : execFbRead i s = .next (afterReject 6 s) := by
  simp only [execFbRead, legalIndex, Nat.not_le.mpr hi, decide_false, Bool.not_false, if_true, reject_eq_afterReject]
  rfl

theorem execFbRead_noFrame {i : Nat} {s : State} (hi : i ≤ 66) (hv : s.frameValid = false) :
    execFbRead i s = .next (afterReject 5 s) := by
  simp only [execFbRead, legalIndex, hi, hv, decide_true, Bool.not_true, Bool.not_false, Bool.false_eq_true, if_false,
    if_true, reject_eq_afterReject]
  rfl

theorem execFbRead_held {i : Nat} {s : State} {b : Byte} (hi : i ≤ 66) (hv : s.frameValid = true)
    (hb : s.fbBuf.byteAt i = some b) : execFbRead i s = .next (respond (BitVec.ofNat 16 b.toNat) s) := by
  have hread : readFrameByte s.fbBuf i = .ok b := readFrameByte_eq_ok.mpr ⟨by omega, hb⟩
  simp [execFbRead, legalIndex, hi, hv, hread, zext16_eq_ofNat]

/-- Settles O24: the checks in their order, and in a legal state every byte of a held frame has been written. -/
theorem fbReadReadsOneByte : Obligations.FbReadReadsOneByte := by
  refine ⟨fun x => ?_, fun i s => ⟨fun hi _ => execFbRead_badIndex s hi, execFbRead_noFrame, fun hi hv hs => ?_⟩⟩
  · have hdecode := decode_encode (i := .fbRead x.toNat) (decide_eq_true x.isLt)
    rwa [encode, Instr.operandByte, BitVec.ofNat_toNat, BitVec.setWidth_eq] at hdecode
  · obtain ⟨-, -, hwritten, -⟩ := hs
    obtain ⟨b, hb⟩ := Option.isSome_iff_exists.mp (hwritten hv i (by omega))
    exact ⟨b, hb, execFbRead_held hi hv hb⟩

/-! ## FB_ACK -/

theorem execFbAck_noFrame {s : State} (hv : s.frameValid = false) : execFbAck s = .next (afterReject 5 s) := by
  simp only [execFbAck, hv, Bool.not_false, if_true, reject_eq_afterReject]
  rfl

theorem execFbAck_held {s : State} (hv : s.frameValid = true) :
    execFbAck s = .next (respond 0 { s with frameValid := false, frameKind := .data, fill := 0 }) := by
  simp [execFbAck, hv]

/-- Settles O25, by the two cases of FB_ACK. -/
theorem fbAckReleasesTheFrame : Obligations.FbAckReleasesTheFrame :=
  ⟨decode_commandWord_bare (i := .fbAck) (by decide), fun _ => ⟨execFbAck_noFrame, execFbAck_held⟩⟩

/-! ## FB_SENTINEL -/

theorem execFbSentinel_held {s : State} (hv : s.frameValid = true) : execFbSentinel s = .next (afterReject 3 s) :=
  (if_pos hv).trans (congrArg Host.Outcome.next (reject_eq_afterReject .framePending s))

theorem execFbSentinel_pageOpen {s : State} (hv : s.frameValid = false) (hfill : s.fill.toNat ≠ 0) :
    execFbSentinel s = .next (afterReject 8 s) := by
  have hne : s.fill ≠ 0 := fun h => hfill (congrArg BitVec.toNat h)
  simp only [execFbSentinel_eq, hv, hne, ne_eq, not_false_eq_true, Bool.false_eq_true, if_false, if_true,
    reject_eq_afterReject]
  rfl

theorem execFbSentinel_empty {s : State} (hv : s.frameValid = false) (hfill : s.fill.toNat = 0) :
    execFbSentinel s = .next (respond 0 (loadedSentinel s)) := by
  have hzero : s.fill = 0 := BitVec.eq_of_toNat_eq hfill
  simp [execFbSentinel_eq, hv, hzero]

/-- Settles O26: the two rejects, and the loaded buffer, which is sound as a sentinel frame. -/
theorem fbSentinelLoadsAllOnes : Obligations.FbSentinelLoadsAllOnes := by
  refine ⟨decode_commandWord_bare (i := .fbSentinel) (by decide), fun s =>
    ⟨execFbSentinel_held, execFbSentinel_pageOpen, fun hv hfill => ?_⟩⟩
  obtain ⟨-, hones⟩ := frameSound_loadedSentinel s
  exact ⟨(loadedSentinel s).fbBuf, hones rfl rfl, execFbSentinel_empty hv hfill⟩

end Sys2Proof.Proofs
end

section
/-! PROOFS. A page of bytes becomes a wire frame (41_frame.md R156, R159): FB_DATA takes the bytes one after another into the
page, and completing the page that holds them makes the frame, from either command. -/

namespace Sys2Proof.Proofs

open Sys2Proof.Machine Sys2Proof.Safety

/-! ## The page while it is filled -/

/-- `p` is `s` with the bytes `data` in its page: FILL counts them, they stand from byte 1 on, and no other register differs
(10_state.md R35, 20_memory.md R61). -/
structure PageHolds (s : State) (data : List Byte) (p : State) : Prop where
  fill : p.fill.toNat = data.length
  bytes : ∀ k < data.length, p.fbBuf.byteAt (1 + k) = data[k]?
  rest : p = { s with fbBuf := p.fbBuf, fill := p.fill, responses := p.responses }

theorem pageHolds_nil {s : State} (hfill : s.fill.toNat = 0) : PageHolds s [] s :=
  ⟨hfill, fun _ hk => (nomatch hk), rfl⟩

theorem pageHolds_respond {s p : State} {data : List Byte} (h : PageHolds s data p) (v : Word) :
    PageHolds s data (respond v p) :=
  ⟨h.fill, h.bytes, congrArg (respond v) h.rest⟩

theorem pageHolds_pushByte (b : Byte) {s p : State} {data : List Byte} (h : PageHolds s data p) (hroom : data.length < 64) :
    PageHolds s (data ++ [b]) (pushByte b p) := by
  obtain ⟨hfill, hbytes, hrest⟩ := h
  refine ⟨?_, fun k hk => ?_, ?_⟩
  · rw [toNat_fill_pushByte b (by omega), hfill, List.length_append, List.length_singleton]
  · rw [List.length_append, List.length_singleton] at hk
    rw [pushByte, dataIndex, hfill, Memory.byteAt_store]
    by_cases hlast : k = data.length
    · subst hlast
      rw [if_pos rfl, List.getElem?_concat_length]
    · rw [if_neg (by omega), hbytes k (by omega), List.getElem?_append_left (by omega)]
  · rw [pushByte, hrest]

theorem frameValid_of_pageHolds {s p : State} {data : List Byte} (h : PageHolds s data p) : p.frameValid = s.frameValid := by
  rw [h.rest]

theorem exhausted_of_pageHolds {s p : State} {data : List Byte} (h : PageHolds s data p) : p.exhausted = s.exhausted := by
  rw [h.rest]

theorem page_of_pageHolds {s p : State} {data : List Byte} (h : PageHolds s data p) : p.page = s.page := by
  rw [h.rest]

theorem execAll_fbBytes_concat {s p t : State} {data : List Byte} {b : Byte} (hrun : execAll (fbBytes data) s = .next p)
    (hlast : execFbData b p = .next t) : execAll (fbBytes (data ++ [b])) s = .next t := by
  rw [fbBytes, List.map_append]
  exact (execAll_append_of_next hrun).trans (execAll_cons_next hlast)

/-- Up to 63 bytes pushed into an empty page leave it open, holding them. -/
theorem execAll_fbBytes {s : State} (hv : s.frameValid = false) (he : s.exhausted = false) (hfill : s.fill.toNat = 0)
    {data : List Byte} (hlength : data.length < 64) : ∃ p, execAll (fbBytes data) s = .next p ∧ PageHolds s data p := by
  induction data using List.reverseRecOn with
  | nil => exact ⟨s, rfl, pageHolds_nil hfill⟩
  | append_singleton data b ih =>
    rw [List.length_append, List.length_singleton] at hlength
    obtain ⟨p, hrun, hp⟩ := ih (by omega)
    have hpush := execFbData_room b ((frameValid_of_pageHolds hp).trans hv) ((exhausted_of_pageHolds hp).trans he)
      (by rw [hp.fill]; omega)
    exact ⟨_, execAll_fbBytes_concat hrun hpush, pageHolds_respond (pageHolds_pushByte b hp (by omega)) _⟩

/-! ## Completing the page -/

/-- The bytes the CRC covers are the page number, the data and the padding (41_frame.md R150). -/
theorem readFrameBytes_paddedPage {s p : State} {data : List Byte} (h : PageHolds s data p) (hlength : data.length ≤ 64) :
    readFrameBytes (paddedPage p) 0 65 = .ok (coveredBytes s.page data) := by
  refine readFrameBytes_eq_ok.mpr ⟨?_, fun k hk => ⟨by omega, ?_⟩⟩
  · rw [coveredBytes, List.length_cons, List.length_append, List.length_replicate]
    omega
  · rw [Nat.zero_add, byteAt_paddedPage, h.fill, page_of_pageHolds h, coveredBytes]
    cases k with
    | zero => simp
    | succ k =>
      rw [List.getElem?_cons_succ, if_neg (Nat.succ_ne_zero k)]
      by_cases hdata : k < data.length
      · rw [if_neg (by omega), Nat.add_comm, h.bytes k hdata, List.getElem?_append_left hdata]
      · rw [if_pos (by omega), List.getElem?_append_right (by omega), List.getElem?_replicate_of_lt (by omega)]

theorem byteAt_of_readFrameBytes {m : Memory} {n : Nat} {bs : List Byte} (h : readFrameBytes m 0 n = .ok bs) {k : Nat}
    (hk : k < n) : m.byteAt k = bs[k]? := by
  obtain ⟨-, hbytes⟩ := readFrameBytes_eq_ok.mp h
  obtain ⟨-, hbyte⟩ := hbytes k hk
  rwa [Nat.zero_add] at hbyte

/-- The CRC stands behind the bytes it covers, low byte first (20_memory.md R63). -/
theorem readFrameBytes_storeCrc {m : Memory} {covered : List Byte} (c : Word) (h : readFrameBytes m 0 65 = .ok covered) :
    readFrameBytes (storeCrc m c) 0 67 = .ok (covered ++ [lowByte c, highByte c]) := by
  obtain ⟨hlength, -⟩ := readFrameBytes_eq_ok.mp h
  refine readFrameBytes_eq_ok.mpr ⟨by simp [hlength], fun k hk => ⟨by omega, ?_⟩⟩
  rw [Nat.zero_add, byteAt_storeCrc]
  obtain h65 | rfl | rfl : k < 65 ∨ k = 65 ∨ k = 66 := by omega
  · rw [if_neg (by omega), if_neg (by omega), byteAt_of_readFrameBytes h h65, List.getElem?_append_left (by omega)]
  · simp [hlength]
  · simp [hlength]

/-- The registers of a state `s` that has completed a page of the bytes `data` into the frame in `m` (41_frame.md R150). -/
def framedState (s : State) (data : List Byte) (m : Memory) (rs : List Response) : State :=
  { s with
    fbBuf := m
    page := s.page + 1
    fill := BitVec.ofNat 7 data.length
    frameValid := true
    frameKind := .data
    responses := ⟨0, BitVec.ofNat 16 data.length⟩ :: rs }

/-- Completing the page that holds `data` makes the wire frame of `data`. -/
theorem completeAndRespond_of_pageHolds {s p : State} {data : List Byte} (h : PageHolds s data p)
    (hlength : data.length ≤ 64) :
    ∃ m rs, completeAndRespond p = .next (framedState s data m rs)
      ∧ readFrameBytes m 0 67 = .ok (wireFrame s.page data) := by
  have hcovered := readFrameBytes_paddedPage h hlength
  refine ⟨_, p.responses, ?_, readFrameBytes_storeCrc (crc16 (coveredBytes s.page data)) hcovered⟩
  have hfill : p.fill = BitVec.ofNat 7 data.length := by
    rw [← h.fill, BitVec.ofNat_toNat, BitVec.setWidth_eq]
  rw [completeAndRespond_of_covered hcovered, zext16_eq_ofNat, h.fill, completedFrame]
  generalize storeCrc (paddedPage p) (crc16 (coveredBytes s.page data)) = m
  rw [h.rest, hfill]
  rfl

/-- 64 bytes pushed into an empty page complete it. -/
theorem execAll_fbBytes_full {s : State} (hv : s.frameValid = false) (he : s.exhausted = false) (hfill : s.fill.toNat = 0)
    {data : List Byte} (hlength : data.length = 64) :
    ∃ m rs, execAll (fbBytes data) s = .next (framedState s data m rs)
      ∧ readFrameBytes m 0 67 = .ok (wireFrame s.page data) := by
  obtain rfl | ⟨data, b, rfl⟩ := data.eq_nil_or_concat'
  · cases hlength
  · have hle := hlength.le
    rw [List.length_append, List.length_singleton] at hlength
    obtain ⟨p, hrun, hp⟩ := execAll_fbBytes hv he hfill (data := data) (by omega)
    have hlast := execFbData_last b ((frameValid_of_pageHolds hp).trans hv) ((exhausted_of_pageHolds hp).trans he)
      (by rw [hp.fill]; omega)
    obtain ⟨m, rs, hcomplete, hread⟩ := completeAndRespond_of_pageHolds (pageHolds_pushByte b hp (by omega)) hle
    exact ⟨m, rs, execAll_fbBytes_concat hrun (hlast.trans hcomplete), hread⟩

/-- 1 to 63 bytes pushed into an empty page, and FB_END, complete it. -/
theorem execAll_fbBytes_fbEnd {s : State} (hv : s.frameValid = false) (he : s.exhausted = false) (hfill : s.fill.toNat = 0)
    {data : List Byte} (hpos : 1 ≤ data.length) (hlength : data.length < 64) :
    ∃ m rs, execAll (fbBytes data ++ [.fbEnd]) s = .next (framedState s data m rs)
      ∧ readFrameBytes m 0 67 = .ok (wireFrame s.page data) := by
  obtain ⟨p, hrun, hp⟩ := execAll_fbBytes hv he hfill hlength
  have hend := execFbEnd_open ((frameValid_of_pageHolds hp).trans hv) (hp.fill ▸ hpos)
  obtain ⟨m, rs, hcomplete, hread⟩ := completeAndRespond_of_pageHolds hp hlength.le
  exact ⟨m, rs, (execAll_append_of_next hrun).trans (execAll_cons_next (hend.trans hcomplete)), hread⟩

/-- Settles O29: a full page completes by its last byte, a short one by FB_END, and FB_END on an empty page ends the
stream. -/
theorem pageOfBytesBecomesTheWireFrame : Obligations.PageOfBytesBecomesTheWireFrame := by
  intro data s _ hv he hfill hlength
  refine ⟨fun hpos => ?_, fun hnone => ?_⟩
  · by_cases h64 : data.length = 64
    · rw [if_pos h64, List.append_nil]
      exact execAll_fbBytes_full hv he hfill h64
    · rw [if_neg h64]
      exact execAll_fbBytes_fbEnd hv he hfill hpos (by omega)
  · obtain rfl := List.eq_nil_of_length_eq_zero hnone
    exact execAll_cons_next (execFbEnd_empty hv hfill)

/-! ## FB_END, whole -/

/-- The frame of the bytes 01 02 03 as page 0 (41_frame.md R152). -/
theorem wireFrame_010203 :
    wireFrame 0x00 [0x01, 0x02, 0x03] = [0x00, 0x01, 0x02, 0x03] ++ List.replicate 61 0xFF ++ [0x16, 0xB3] := by
  decide +kernel

/-- Settles O23, from the equations of FB_END; the buffer before the CRC is the padded page, and the example is a page of
three bytes. -/
theorem fbEndEndsTheStream : Obligations.FbEndEndsTheStream := by
  refine ⟨decode_commandWord_bare (i := .fbEnd) (by decide), fun s =>
    ⟨execFbEnd_held, execFbEnd_empty, fun hs hv hfill => ?_⟩, ?_⟩
  · obtain ⟨covered, hcovered, hexec⟩ := execFbEnd_completes hs hv hfill
    refine ⟨paddedPage s, covered, fun k => ?_, hcovered, hexec⟩
    rw [byteAt_paddedPage]
    by_cases hzero : k = 0
    · rw [if_neg (by omega), if_pos hzero, if_pos hzero]
    · rw [if_neg hzero, if_neg hzero]
  · obtain ⟨m, rs, hrun, hread⟩ := execAll_fbBytes_fbEnd (s := State.reset) (data := [0x01, 0x02, 0x03]) rfl rfl rfl
      (by decide) (by decide)
    exact ⟨_, hrun, hread.trans (congrArg Except.ok wireFrame_010203), rfl, rfl⟩

/-! ## Padding and input -/

theorem length_append_padding {data : List Byte} (hlength : data.length ≤ 64) :
    (data ++ List.replicate (64 - data.length) (0xFF : Byte)).length = 64 := by
  rw [List.length_append, List.length_replicate]
  omega

/-- Padding is what the same number of input bytes 0xFF would be (41_frame.md R159). -/
theorem wireFrame_append_padding (page : Byte) {data : List Byte} (hlength : data.length ≤ 64) :
    wireFrame page (data ++ List.replicate (64 - data.length) 0xFF) = wireFrame page data := by
  have hcovered : coveredBytes page (data ++ List.replicate (64 - data.length) 0xFF) = coveredBytes page data := by
    rw [coveredBytes, length_append_padding hlength]
    simp [coveredBytes]
  rw [wireFrame, wireFrame, hcovered]

/-- Settles O30: both pages complete to the same wire frame, so to states that differ in FILL; the CRC of the example is
computed. -/
theorem onlyFillTellsPaddingFromInput : Obligations.OnlyFillTellsPaddingFromInput := by
  refine ⟨fun data s _ hv he hfill hpos hlength => ?_, by decide +kernel⟩
  have hfull := length_append_padding hlength.le
  obtain ⟨m, rs, hshort, hread⟩ := execAll_fbBytes_fbEnd hv he hfill hpos hlength
  obtain ⟨m', rs', hlong, hread'⟩ := execAll_fbBytes_full hv he hfill hfull
  rw [wireFrame_append_padding s.page hlength.le] at hread'
  refine ⟨_, _, hshort, hlong, rfl, rfl, fun k hk => ?_, ?_, ?_, rfl⟩
  · exact (byteAt_of_readFrameBytes hread hk).trans (byteAt_of_readFrameBytes hread' hk).symm
  · exact Nat.mod_eq_of_lt (by omega)
  · exact congrArg (fun n => (BitVec.ofNat 7 n).toNat) hfull

end Sys2Proof.Proofs
end

section
/-! PROOFS. The frame builder along a run without RESET: the page numbers of its data frames (41_frame.md R157) and the end of
the stream (70_reset_and_hazards.md R265). -/

namespace Sys2Proof.Proofs

open Sys2Proof.Machine Sys2Proof.Safety

/-! ## Page numbers -/

/-- A command that completes a data frame counts PAGE up. -/
theorem page_of_completes {i : Instr} {s t : State} (h : exec i s = .next t) (hcompletes : Completes s t) :
    t.page = s.page + 1 := by
  obtain ⟨hv, hheld, hkind⟩ := hcompletes
  obtain ⟨e, rfl⟩ | ⟨v, u, hu, rfl⟩ := exec_next h
  · simp [hv] at hheld
  · cases hu with
    | fbDataFull | fbEndOpen => rfl
    | fbSentinel => cases hkind
    | reset | fbAck => cases hheld
    | _ => exact absurd (hv.symm.trans hheld) (by decide)

/-- A command other than RESET that completes no data frame leaves PAGE. -/
theorem page_of_not_completes {i : Instr} {s t : State} (h : exec i s = .next t) (hreset : i ≠ .reset)
    (hcompletes : ¬ Completes s t) : t.page = s.page := by
  by_contra hne
  obtain ⟨-, hdone⟩ | hi := writers_of_page h hne
  · exact hcompletes hdone
  · exact hreset hi

/-- A frame just completed carries the page number PAGE had before it: no frame was held before that could be unsound, and
the command makes a sound one. -/
theorem byteAt_zero_of_completes {i : Instr} {s t : State} (h : exec i s = .next t) (hcompletes : Completes s t) :
    t.fbBuf.byteAt 0 = some s.page := by
  have ⟨hv, hheld, hkind⟩ := hcompletes
  obtain ⟨hsound, -⟩ := frameSound_of_exec (frameSound_of_noFrame hv) h
  obtain ⟨hzero, -⟩ := hsound hheld hkind
  rw [hzero, page_of_completes h hcompletes, add_sub_cancel_right]

theorem dataFrames_cons_of_next {i : Instr} {is : List Instr} {s t : State} (h : exec i s = .next t) :
    dataFrames (i :: is) s = (if Completes s t then 1 else 0) + dataFrames is t := by
  simp only [dataFrames, h]

/-- PAGE counts the data frames that complete, modulo 256 (10_state.md R34). -/
theorem page_of_execAll {is : List Instr} {s t : State} (h : execAll is s = .next t) (hreset : .reset ∉ is) :
    t.page = s.page + BitVec.ofNat 8 (dataFrames is s) := by
  induction is generalizing s with
  | nil =>
    cases Host.Outcome.next.inj h
    exact (BitVec.add_zero _).symm
  | cons i is ih =>
    obtain ⟨hi, his⟩ : Instr.reset ≠ i ∧ Instr.reset ∉ is := by simpa using hreset
    obtain ⟨u, hu, hrun⟩ := execAll_cons_eq_next.mp h
    rw [ih hrun his, dataFrames_cons_of_next hu]
    by_cases hcompletes : Completes s u
    · rw [if_pos hcompletes, page_of_completes hu hcompletes, BitVec.ofNat_add, BitVec.add_assoc]
      rfl
    · rw [if_neg hcompletes, page_of_not_completes hu hi.symm hcompletes, Nat.zero_add]

/-- Settles O31: PAGE is the number of frames completed before the last command, which writes it to byte 0 and counts it up
if it completes a frame. -/
theorem dataFramesCarryConsecutivePageNumbers : Obligations.DataFramesCarryConsecutivePageNumbers := by
  intro is i s u t hpage his hi hrun hexec
  have hcount : u.page = BitVec.ofNat 8 (dataFrames is s) := by
    rw [page_of_execAll hrun his, hpage]
    exact BitVec.zero_add _
  refine ⟨fun hcompletes => ⟨?_, ?_⟩, fun hcompletes => ?_⟩
  · rw [byteAt_zero_of_completes hexec hcompletes, hcount]
  · rw [page_of_completes hexec hcompletes, hcount, BitVec.ofNat_add]
    rfl
  · rw [page_of_not_completes hexec hi hcompletes, hcount]

/-! ## The end of the stream -/

/-- No command but RESET takes EXHAUSTED back: FB_END only sets it (10_state.md R38). -/
theorem exhausted_of_exec {i : Instr} {s t : State} (h : exec i s = .next t) (hreset : i ≠ .reset)
    (he : s.exhausted = true) : t.exhausted = true := by
  obtain ⟨e, rfl⟩ | ⟨v, u, hu, rfl⟩ := exec_next h
  · exact (reject_exhausted e s).trans he
  · cases hu with
    | reset => exact absurd rfl hreset
    | fbEndEmpty => rfl
    | _ => exact he

theorem exhausted_of_execAll {is : List Instr} {s t : State} (h : execAll is s = .next t) (hreset : .reset ∉ is)
    (he : s.exhausted = true) : t.exhausted = true := by
  induction is generalizing s with
  | nil =>
    cases Host.Outcome.next.inj h
    exact he
  | cons i is ih =>
    obtain ⟨hi, his⟩ : Instr.reset ≠ i ∧ Instr.reset ∉ is := by simpa using hreset
    obtain ⟨u, hu, hrun⟩ := execAll_cons_eq_next.mp h
    exact ih hrun his (exhausted_of_exec hu hi.symm he)

/-- A stream with a byte in its open page has not ended (10_state.md R43). -/
theorem exhausted_eq_false_of_open {s : State} (hs : Legal s) (hv : s.frameValid = false) (hfill : 1 ≤ s.fill.toNat) :
    s.exhausted = false := by
  obtain ⟨-, -, -, hempty, -⟩ := openPage_of_legal hs hv
  exact Bool.eq_false_iff.mpr fun he => by have := hempty he; omega

/-- Once the held frame is released, FB_END finds no byte and ends the stream (41_frame.md R152, R154). -/
theorem execAll_fbAck_fbEnd {s : State} (hv : s.frameValid = true) :
    ∃ t, execAll [.fbAck, .fbEnd] s = .next t ∧ t.exhausted = true ∧ t.frameValid = false := by
  have hack : exec .fbAck s = .next _ := execFbAck_held hv
  have hend := execFbEnd_empty (s := respond 0 { s with frameValid := false, frameKind := .data, fill := 0 }) rfl rfl
  exact ⟨_, (execAll_cons_next hack).trans (execAll_cons_next hend), rfl, rfl⟩

/-- Settles O33: FB_END completes the short page and leaves EXHAUSTED, which the FB_END after FB_ACK sets; from then on every
command keeps it. -/
theorem exhaustionLastsUntilReset : Obligations.ExhaustionLastsUntilReset := by
  refine ⟨fun s hs hv hfill => ?_, fun is s hs he hreset => ?_⟩
  · obtain ⟨covered, -, hend⟩ := execFbEnd_completes hs hv hfill
    obtain ⟨u, hrun, hexhausted, hreleased⟩ :=
      execAll_fbAck_fbEnd (s := respond (BitVec.ofNat 16 s.fill.toNat) (completedFrame s covered)) rfl
    have hopen : s.exhausted = false := exhausted_eq_false_of_open hs hv hfill
    exact ⟨_, u, hend, hopen, rfl, hrun, hexhausted, hreleased⟩
  · obtain ⟨t, hrun⟩ := execAll_answers_of_legal hs is
    have hended := exhausted_of_execAll hrun hreset he
    exact ⟨t, hrun, hended, fun b hv => execFbData_exhausted b hv hended⟩

end Sys2Proof.Proofs
end

section
/-! PROOFS. The marker matcher (42_match.md): its transitions and commands, and how much of the marker it holds along a run. -/

namespace Sys2Proof.Proofs

open Sys2Proof.Machine Sys2Proof.Safety

/-! ## Transitions -/

/-- 'A' restarts the matcher from any state, Matched included (42_match.md R190). -/
theorem delta_A (p : ConnectState) : delta p 0x41 = .sawA := rfl

/-- A byte that is none of the marker's falls to Idle. -/
theorem delta_of_not_mem_marker (p : ConnectState) {b : Byte} (hb : b ∉ Config.marker) : delta p b = .idle := by
  obtain ⟨rfl, -⟩ | ⟨-, -, rfl, -⟩ | ⟨-, -, rfl, -⟩ | ⟨-, -, rfl, -⟩ | ⟨-, -, rfl, -⟩ | ⟨-, h⟩ := delta_cases p b
  case inr.inr.inr.inr.inr => exact h
  all_goals exact absurd (by decide) hb

/-- No byte advances Matched. -/
theorem delta_matched {b : Byte} (hb : b ≠ 0x41) : delta .matched b = .idle := by
  obtain ⟨hA, -⟩ | ⟨-, hp, -⟩ | ⟨-, hp, -⟩ | ⟨-, hp, -⟩ | ⟨-, hp, -⟩ | ⟨-, h⟩ := delta_cases .matched b
  case inl => exact absurd hA hb
  case inr.inr.inr.inr.inr => exact h
  all_goals cases hp

/-- Settles O34: the rows are computed, and a byte of no column falls to Idle. -/
theorem transitionTable : Obligations.TransitionTable :=
  ⟨by decide, fun p _ => delta_of_not_mem_marker p⟩

/-! ## The commands -/

/-- Settles O35: the word is the command's, and the corner cases are transitions. -/
theorem pmFeedAdvancesTheMatcher : Obligations.PmFeedAdvancesTheMatcher :=
  ⟨fun x => decode_encode (i := .pmFeed x) rfl, fun b s => by rw [← zext16_eq_ofNat]; rfl, delta_A,
    fun _ => delta_matched, fun p => ⟨delta_of_not_mem_marker p (by decide), delta_of_not_mem_marker p (by decide)⟩, rfl⟩

/-- Settles O36: the word is that of a command without operand, and the effect is the command's definition. -/
theorem pmClearReturnsToIdle : Obligations.PmClearReturnsToIdle :=
  ⟨decode_commandWord_bare (i := .pmClear) (by decide), fun _ => rfl⟩

/-- Settles O39: the three runs are computed. -/
theorem matcherExamples : Obligations.MatcherExamples :=
  ⟨⟨_, rfl, rfl⟩, ⟨_, rfl, rfl⟩, ⟨_, rfl, rfl⟩⟩

/-! ## PM_STATE along a run -/

theorem pmState_of_exec {i : Instr} {s t : State} (h : exec i s = .next t) (hclear : i ≠ .pmClear) (hreset : i ≠ .reset) :
    t.pmState = (fedByte i).toList.foldl delta s.pmState := by
  cases i with
  | pmFeed b => cases Host.Outcome.next.inj h; rfl
  | pmClear => exact absurd rfl hclear
  | reset => exact absurd rfl hreset
  | _ =>
    by_contra hne
    simpa using writers_of_pmState h hne

/-- PM_STATE after a run without PM_CLEAR and RESET depends on the bytes fed alone. -/
theorem pmState_of_execAll {is : List Instr} {s t : State} (h : execAll is s = .next t) (hclear : .pmClear ∉ is)
    (hreset : .reset ∉ is) : t.pmState = (is.filterMap fedByte).foldl delta s.pmState := by
  induction is generalizing s with
  | nil =>
    cases Host.Outcome.next.inj h
    rfl
  | cons i is ih =>
    obtain ⟨hic, hclear⟩ : Instr.pmClear ≠ i ∧ Instr.pmClear ∉ is := by simpa using hclear
    obtain ⟨hir, hreset⟩ : Instr.reset ≠ i ∧ Instr.reset ∉ is := by simpa using hreset
    obtain ⟨u, hu, hrun⟩ := execAll_cons_eq_next.mp h
    have hfed : (i :: is).filterMap fedByte = (fedByte i).toList ++ is.filterMap fedByte := by
      simp only [List.filterMap_eq_flatMap_toList, List.flatMap_cons]
    rw [hfed, List.foldl_append, ← pmState_of_exec hu hic.symm hir.symm, ih hrun hclear hreset]

/-! ## How much of the marker the bytes end with -/

theorem number_le_five (p : ConnectState) : p.number.toNat ≤ 5 := by
  cases p <;> decide

theorem number_eq_five_iff (p : ConnectState) : p.number.toNat = 5 ↔ p = .matched := by
  cases p <;> decide

theorem eq_of_toNat_number_eq {p q : ConnectState} (h : p.number.toNat = q.number.toNat) : p = q := by
  revert h
  cases p <;> cases q <;> decide

/-- The marker's next byte advances the matcher. -/
theorem number_delta_of_next {p : ConnectState} {b : Byte} (h : Config.marker[p.number.toNat]? = some b) :
    (delta p b).number.toNat = p.number.toNat + 1 := by
  cases p with
  | matched => cases h
  | _ => cases h; rfl

/-- What the matcher holds after a transition ends what it held before with the byte put to it. -/
theorem take_number_delta_suffix (p : ConnectState) (b : Byte) :
    Config.marker.take (delta p b).number.toNat <:+ Config.marker.take p.number.toNat ++ [b] := by
  obtain ⟨rfl, h⟩ | ⟨-, rfl, rfl, h⟩ | ⟨-, rfl, rfl, h⟩ | ⟨-, rfl, rfl, h⟩ | ⟨-, rfl, rfl, h⟩ | ⟨-, h⟩ := delta_cases p b
  case inl => rw [h]; exact List.suffix_append _ _
  case inr.inr.inr.inr.inr => rw [h]; exact List.nil_suffix
  all_goals exact List.suffix_rfl

/-- No beginning of the marker but the empty one ends a longer beginning of it (42_match.md R193). -/
theorem eq_zero_of_take_marker_suffix_take_marker :
    ∀ k ≤ 5, ∀ j < k, Config.marker.take j <:+ Config.marker.take k → j = 0 := by decide

theorem take_marker_succ_suffix_concat_iff {j : Nat} (hj : j < 5) {f : List Byte} {b : Byte} :
    Config.marker.take (j + 1) <:+ f ++ [b] ↔ Config.marker[j]? = some b ∧ Config.marker.take j <:+ f := by
  have hlength : j < Config.marker.length := hj
  rw [List.take_add_one, List.getElem?_eq_getElem hlength, Option.toList_some,
    List.suffix_append_inj_of_length_eq (s₁ := [Config.marker[j]]) (s₂ := [b]) rfl,
    List.singleton_inj, Option.some.injEq, and_comm]

/-- `n` is how many first bytes of the marker, at most, `f` ends with (42_match.md R193). -/
def LongestMarkerPrefix (f : List Byte) (n : Nat) : Prop :=
  n ≤ 5 ∧ Config.marker.take n <:+ f ∧ ∀ j ≤ 5, Config.marker.take j <:+ f → j ≤ n

theorem longestMarkerPrefix_unique {f : List Byte} {m n : Nat} (hm : LongestMarkerPrefix f m)
    (hn : LongestMarkerPrefix f n) : m = n := by
  obtain ⟨hm5, hmf, hmax⟩ := hm
  obtain ⟨hn5, hnf, hmax'⟩ := hn
  exact Nat.le_antisymm (hmax' m hm5 hmf) (hmax n hn5 hnf)

/-- Feeding a byte keeps the matcher's number the most marker bytes the bytes fed end with. -/
theorem longestMarkerPrefix_delta {f : List Byte} {p : ConnectState} (h : LongestMarkerPrefix f p.number.toNat) (b : Byte) :
    LongestMarkerPrefix (f ++ [b]) (delta p b).number.toNat := by
  obtain ⟨h5, hsuffix, hmax⟩ := h
  refine ⟨number_le_five _, ?_, fun j hj hjf => ?_⟩
  · exact (take_number_delta_suffix p b).trans (List.suffix_append_self_iff.mpr hsuffix)
  · cases j with
    | zero => exact Nat.zero_le _
    | succ j =>
      obtain ⟨hb, hj'⟩ := (take_marker_succ_suffix_concat_iff hj).mp hjf
      have hle : j ≤ p.number.toNat := hmax j (by omega) hj'
      obtain rfl | hlt := hle.eq_or_lt
      · exact (number_delta_of_next hb).ge
      · have hborder := List.suffix_of_suffix_length_le hj' hsuffix (List.take_prefix_take_left hle).length_le
        obtain rfl := eq_zero_of_take_marker_suffix_take_marker _ h5 j hlt hborder
        obtain rfl : 0x41 = b := Option.some.inj hb
        exact Nat.le_refl 1

theorem longestMarkerPrefix_foldl_delta (f : List Byte) : LongestMarkerPrefix f (f.foldl delta .idle).number.toNat := by
  induction f using List.reverseRecOn with
  | nil => exact ⟨by decide, List.suffix_rfl, by decide⟩
  | append_singleton f b ih =>
    rw [List.foldl_concat]
    exact longestMarkerPrefix_delta ih b

/-- The marker is five bytes, so the last five bytes say how much of it the bytes end with. -/
theorem take_marker_suffix_lastFive_iff {f : List Byte} {j : Nat} :
    Config.marker.take j <:+ f.drop (f.length - 5) ↔ Config.marker.take j <:+ f := by
  refine ⟨fun h => h.trans (List.drop_suffix _ _), fun h => ?_⟩
  refine List.suffix_of_suffix_length_le h (List.drop_suffix _ _) ?_
  have hf := h.length_le
  have hmarker : (Config.marker.take j).length ≤ 5 := List.length_take_le' _ _
  rw [List.length_drop]
  omega

theorem foldl_delta_lastFive (f : List Byte) : (f.drop (f.length - 5)).foldl delta .idle = f.foldl delta .idle := by
  refine eq_of_toNat_number_eq (longestMarkerPrefix_unique (f := f) ?_ (longestMarkerPrefix_foldl_delta f))
  simpa only [LongestMarkerPrefix, take_marker_suffix_lastFive_iff] using
    longestMarkerPrefix_foldl_delta (f.drop (f.length - 5))

/-- Settles O38: the run answers and leaves in PM_STATE the transitions on the bytes fed, whose number is how much of
the marker they end with. -/
theorem matcherTracksTheLongestMarkerPrefix : Obligations.MatcherTracksTheLongestMarkerPrefix := by
  intro is s hs hidle hclear hreset
  obtain ⟨t, hrun⟩ := execAll_answers_of_legal hs is
  have hstate : t.pmState = (is.filterMap fedByte).foldl delta .idle := hidle ▸ pmState_of_execAll hrun hclear hreset
  have ⟨h5, hsuffix, hmax⟩ := longestMarkerPrefix_foldl_delta (is.filterMap fedByte)
  rw [foldl_delta_lastFive, ← hstate]
  rw [← hstate] at h5 hsuffix hmax
  refine ⟨t, hrun, h5, hsuffix, hmax, ⟨fun h => ?_, fun h => ?_⟩, rfl⟩
  · rwa [h] at hsuffix
  · exact (number_eq_five_iff _).mp (Nat.le_antisymm h5 (hmax 5 (Nat.le_refl 5) h))

end Sys2Proof.Proofs
end

section
/-! PROOFS. The control commands (43_control.md): RESET and CLR_ERR whole, and READ_REG by whether its number names a register. -/

namespace Sys2Proof.Proofs

open Sys2Proof.Machine Sys2Proof.Safety

/-- Settles O40: the word is that of a command without operand, and the values are those of the reset state. -/
theorem resetClearsEveryRegister : Obligations.ResetClearsEveryRegister :=
  ⟨decode_commandWord_bare (i := .reset) (by decide), fun _ => rfl⟩

/-- Settles O41: the word is that of a command without operand, and the effect is the command's definition. -/
theorem clrErrClearsTheRecord : Obligations.ClrErrClearsTheRecord :=
  ⟨decode_commandWord_bare (i := .clrErr) (by decide), fun _ => rfl⟩

/-! ## READ_REG -/

/-- The numbers that name a register are 0 to 4 (10_state.md R44). -/
theorem readRegister_eq_none_iff (s : State) (r : Nat) : readRegister s r = none ↔ 4 < r :=
  match r with
  | 0 | 1 | 2 | 3 | 4 => by simp [readRegister]
  | r + 5 => ⟨fun _ => by omega, fun _ => rfl⟩

theorem exec_readReg_badReg {r : Nat} (s : State) (hr : 4 < r) : exec (.readReg r) s = .next (afterReject 7 s) := by
  simp only [exec, execReadReg, (readRegister_eq_none_iff s r).mpr hr, reject_eq_afterReject]
  rfl

theorem exec_readReg_register {r : Nat} {s : State} {v : Word} (hv : readRegister s r = some v) :
    exec (.readReg r) s = .next (respond v s) := by
  simp only [exec, execReadReg, hv]

/-- Settles O42: the number's reject, and one register by each of the five numbers. -/
theorem readRegReadsOneRegister : Obligations.ReadRegReadsOneRegister := by
  refine ⟨fun x => ?_, fun s => ⟨fun r hr _ => exec_readReg_badReg s hr, ?_, ?_, ?_, ?_, ?_⟩⟩
  · have hdecode := decode_encode (i := .readReg x.toNat) (decide_eq_true x.isLt)
    rwa [encode, Instr.operandByte, BitVec.ofNat_toNat, BitVec.setWidth_eq] at hdecode
  · exact exec_readReg_register rfl
  · exact exec_readReg_register rfl
  · exact exec_readReg_register rfl
  · exact exec_readReg_register (congrArg some (zext16_eq_ofNat s.page))
  · exact exec_readReg_register (congrArg some (zext16_eq_ofNat s.errCode))

end Sys2Proof.Proofs
end

section
/-! PROOFS. Errors (60_exceptions.md): a reject changes the error record alone, no command word stops a legal state, and the code
of each response is the one of the table of R235. -/

namespace Sys2Proof.Proofs

open Sys2Proof.Machine Sys2Proof.Safety

/-- Settles O8: with no word to fetch, the step is the idle one. -/
theorem idleStepHoldsTheState : Obligations.IdleStepHoldsTheState :=
  fun _ => step_of_commands_nil

/-- Settles O46: a response with a nonzero code is not an accepted command's, so the step was a reject, with one of the eight
codes of R231. -/
theorem rejectChangesOnlyTheErrorRecord : Obligations.RejectChangesOnlyTheErrorRecord := by
  intro w rest s t r hstep hresponse hcode
  obtain ⟨e, rfl⟩ | ⟨-, v, u, -, -, rfl⟩ := step_next hstep
  case inl =>
    obtain rfl : ⟨e.code, 0⟩ = r := by simpa using hresponse
    have hpos : e.code.toNat ≠ 0 := fun hzero => errorCode_ne_zero e (BitVec.eq_of_toNat_eq hzero)
    exact ⟨reject_eq_afterReject e _, rfl, Nat.one_le_iff_ne_zero.mpr hpos, toNat_errorCode_le_eight e⟩
  case inr =>
    obtain rfl : ⟨0, v⟩ = r := by simpa using hresponse
    exact absurd rfl hcode

/-- Settles O50: an idle step and the reject of a word answer in every state, and a command answers in a legal one. -/
theorem legalStatesNeverStop : Obligations.LegalStatesNeverStop := by
  intro s hs
  obtain ⟨-, hidle⟩ | ⟨w, rest, i, -, -, hstep⟩ | ⟨w, rest, e, -, -, hstep⟩ := step_cases s
  · exact ⟨s, hidle⟩
  · rw [hstep]
    exact exec_answers_of_legal (legal_withCommands hs rest) i
  · exact ⟨_, hstep⟩

/-! ## The acceptance table (60_exceptions.md R235) -/

/-- The table's row of a command that decoded: the code of its response in the state `s`. `acceptanceCode_encode` ties it to the
table, which is over words. -/
def commandCode (s : State) : Instr → BitVec 4
  | .readReg r => if 4 < r then 7 else 0
  | .fbData _ => if s.frameValid then 3 else if s.exhausted then 4 else 0
  | .fbEnd => if s.frameValid then 3 else 0
  | .fbRead k => if 66 < k then 6 else if s.frameValid then 0 else 5
  | .fbAck => if s.frameValid then 0 else 5
  | .fbSentinel => if s.frameValid then 3 else if s.fill ≠ 0 then 8 else 0
  | .reset | .clrErr | .crcClear | .crcByte _ | .crcFinish | .pmFeed _ | .pmClear => 0

theorem acceptanceCode_encode {i : Instr} (hi : i.wellFormed = true) (s : State) :
    acceptanceCode (encode i) s = commandCode s i := by
  simp only [acceptanceCode, toNat_encode_div, toNat_encode_mod]
  cases i with
  | readReg r | fbRead r =>
    have hr : r < 256 := by simpa [Instr.wellFormed] using hi
    simp [Instr.opcode, Instr.operandByte, commandCode, Nat.mod_eq_of_lt hr]
  | _ => simp [Instr.opcode, Instr.operandByte, commandCode]

/-- A word that does not decode has the code of its decoding error in every state (30_encoding.md R94). -/
theorem acceptanceCode_of_decode_error {w : Word} {e : DecodeError} (h : decode w = .error e) (s : State) :
    acceptanceCode w s = (decodeErrorName e).code := by
  cases e with
  | illegalOpcode =>
    have hnone := (decode_eq_illegalOpcode_iff w).mp h
    simp only [bareOpcodes, operandOpcodes, List.cons_append, List.nil_append, List.mem_cons, List.not_mem_nil, or_false,
      not_or] at hnone
    simp [acceptanceCode, hnone, decodeErrorName, ErrorName.code]
  | nonzeroOperand =>
    obtain ⟨hbare, hx⟩ := (decode_eq_nonzeroOperand_iff w).mp h
    simp only [bareOpcodes, List.mem_cons, List.not_mem_nil, or_false] at hbare
    obtain hop | hop | hop | hop | hop | hop | hop | hop := hbare <;>
      simp [acceptanceCode, hop, hx, decodeErrorName, ErrorName.code]

/-- `RespondsWith c s t`: between `s` and `t` one response was given, with code `c`. -/
def RespondsWith (c : BitVec 4) (s t : State) : Prop :=
  ∃ r, t.responses = r :: s.responses ∧ r.code = c

theorem respondsWith_reject {c : BitVec 4} {e : ErrorName} (hc : e.code = c) (s : State) : RespondsWith c s (reject e s) :=
  ⟨⟨e.code, 0⟩, reject_responses e s, hc⟩

theorem respondsWith_respond {c : BitVec 4} (hc : 0 = c) {s u : State} (hkept : u.responses = s.responses) (v : Word) :
    RespondsWith c s (respond v u) :=
  ⟨⟨0, v⟩, by rw [respond_responses, hkept], hc⟩

/-- A command that answers gives one response, whose code is that of its row, by everything the command can do. -/
theorem respondsWith_of_exec {i : Instr} {s t : State} (h : exec i s = .next t) : RespondsWith (commandCode s i) s t := by
  cases i with
  | readReg r =>
    obtain ⟨hr, rfl⟩ | ⟨hr, v, -, rfl⟩ := execReadReg_next h
    · exact respondsWith_reject (if_pos hr).symm s
    · exact respondsWith_respond (if_neg hr.not_gt).symm rfl v
  | fbData b =>
    obtain ⟨hv, rfl⟩ | ⟨hv, he, rfl⟩ | ⟨hv, he, -, -, rfl⟩ | ⟨hv, he, -, -, u, hu, rfl⟩ := execFbData_next h
    · exact respondsWith_reject (by simp [commandCode, hv, ErrorName.code]) s
    · exact respondsWith_reject (by simp [commandCode, hv, he, ErrorName.code]) s
    · exact respondsWith_respond (by simp [commandCode, hv, he]) rfl _
    · obtain ⟨covered, rfl⟩ := completeDataFrame_eq_completedFrame hu
      exact respondsWith_respond (by simp [commandCode, hv, he]) rfl _
  | fbEnd =>
    obtain ⟨hv, rfl⟩ | ⟨hv, -, rfl⟩ | ⟨hv, -, u, hu, rfl⟩ := execFbEnd_next h
    · exact respondsWith_reject (by simp [commandCode, hv, ErrorName.code]) s
    · exact respondsWith_respond (by simp [commandCode, hv]) rfl _
    · obtain ⟨covered, rfl⟩ := completeDataFrame_eq_completedFrame hu
      exact respondsWith_respond (by simp [commandCode, hv]) rfl _
  | fbRead k =>
    obtain ⟨hk, rfl⟩ | ⟨hk, hv, rfl⟩ | ⟨hk, hv, b, -, rfl⟩ := execFbRead_next h
    · exact respondsWith_reject (if_pos hk).symm s
    · exact respondsWith_reject (by simp [commandCode, hk.not_gt, hv, ErrorName.code]) s
    · exact respondsWith_respond (by simp [commandCode, hk.not_gt, hv]) rfl _
  | fbAck =>
    obtain ⟨hv, rfl⟩ | ⟨hv, rfl⟩ := execFbAck_next h
    · exact respondsWith_reject (by simp [commandCode, hv, ErrorName.code]) s
    · exact respondsWith_respond (by simp [commandCode, hv]) rfl _
  | fbSentinel =>
    obtain ⟨hv, rfl⟩ | ⟨hv, hfill, rfl⟩ | ⟨hv, hfill, rfl⟩ := execFbSentinel_next h
    · exact respondsWith_reject (by simp [commandCode, hv, ErrorName.code]) s
    · exact respondsWith_reject ((if_neg (Bool.eq_false_iff.mp hv)).trans (if_pos hfill)).symm s
    · exact respondsWith_respond (by simp [commandCode, hv, hfill]) rfl _
  | reset | clrErr | crcClear | crcByte | crcFinish | pmFeed | pmClear =>
    obtain rfl := Host.Outcome.next.inj h
    exact respondsWith_respond rfl rfl _

/-- A step with a word issued, when it answers, gives one response, with the table's code for the word. -/
theorem respondsWith_acceptanceCode_of_step {w : Word} {rest : List Word} {s t : State}
    (h : step (withCommands s (w :: rest)) = .next t) : RespondsWith (acceptanceCode w s) s t := by
  cases hdecode : decode w with
  | ok i =>
    obtain ⟨hwf, rfl⟩ := decode_eq_ok hdecode
    have hrow : acceptanceCode (encode i) s = commandCode (withCommands s rest) i :=
      acceptanceCode_encode hwf (withCommands s rest)
    have hexec := stepRunsTheDecodedCommand _ _ rest i (withCommands_commands s _) hdecode
    rw [hrow]
    exact respondsWith_of_exec (s := withCommands s rest) (hexec.symm.trans h)
  | error e =>
    rw [step_of_decode_error hdecode, ← reject_eq_afterReject] at h
    obtain rfl := Host.Outcome.next.inj h
    exact respondsWith_reject (acceptanceCode_of_decode_error hdecode s).symm (withCommands s rest)

/-- Settles O48: the step answers, since the state is legal, and its one response has the table's code. -/
theorem responseCodeFollowsTheAcceptanceTable : Obligations.ResponseCodeFollowsTheAcceptanceTable := by
  intro w rest s hs
  obtain ⟨t, hstep⟩ := legalStatesNeverStop (withCommands s (w :: rest)) (legal_withCommands hs _)
  obtain ⟨r, hresponses, hcode⟩ := respondsWith_acceptanceCode_of_step hstep
  exact ⟨t, r, hstep, hresponses, hcode⟩

end Sys2Proof.Proofs
end

section
/-! PROOFS. Reset (70_reset_and_hazards.md R260): power-on and the RESET command leave the same registers. -/

namespace Sys2Proof.Proofs

open Sys2Proof.Machine

/-- Settles O45: the ten registers of the power-on state by its definition; RESET writes the same ten values, as the
effect proved for O40 lists them. -/
theorem powerOnEqualsResetCommand : Obligations.PowerOnEqualsResetCommand := by
  obtain ⟨-, hreset⟩ := resetClearsEveryRegister
  exact ⟨rfl, rfl, rfl, rfl, rfl, rfl, rfl, rfl, rfl, rfl, hreset⟩

end Sys2Proof.Proofs
end

section
/-! PROOFS. Numbers no command word carries (log entry 10): an index or a register number beyond a byte. -/

namespace Sys2Proof.Proofs

open Sys2Proof.Machine

/-- Settles O58: the rejects of FB_READ and READ_REG hold for every number above the legal range, beyond a byte too. -/
theorem numbersBeyondAByteAreRejected : Obligations.NumbersBeyondAByteAreRejected :=
  ⟨fun _ s hi => execFbRead_badIndex s (by omega), fun _ s hr => exec_readReg_badReg s (by omega)⟩

end Sys2Proof.Proofs
end

section
/-! PROOFS. Independence of the CRC unit (92_eei_decisions.md D4): the commands of the other units do the same whatever CRC_REG
and CRC_OUT hold, and carry both along. Frame completion computes its CRC from the buffer, not from the unit. -/

namespace Sys2Proof.Proofs

open Sys2Proof.Machine Sys2Proof.Safety

/-- The state with other contents of the CRC unit. -/
def withCrcUnit (s : State) (p q : Word) : State := { s with crcReg := p, crcOut := q }

theorem reject_withCrcUnit (e : ErrorName) (s : State) (p q : Word) :
    reject e (withCrcUnit s p q) = withCrcUnit (reject e s) p q := by
  simp only [reject_eq_afterReject]
  rfl

/-- A check on which both results agree leaves their relation to the branches. -/
theorem ite_eq_mapNext {c : Prop} [Decidable c] {f : State → State} {a a' b b' : Result} (ha : a = mapNext f a')
    (hb : b = mapNext f b') : (if c then a else b) = mapNext f (if c then a' else b') := by
  rw [ha, hb, apply_ite (mapNext f)]

section
variable (s : State) (p q : Word)

theorem next_reject_withCrcUnit (e : ErrorName) :
    .next (reject e (withCrcUnit s p q)) = mapNext (withCrcUnit · p q) (.next (reject e s)) :=
  congrArg Host.Outcome.next (reject_withCrcUnit e s p q)

/-- The CRC of a frame is taken over the buffer's bytes, and CRC_REG has no part in it (41_frame.md R150). -/
theorem completeAndRespond_withCrcUnit :
    completeAndRespond (withCrcUnit s p q) = mapNext (withCrcUnit · p q) (completeAndRespond s) := by
  have hpadded : paddedPage (withCrcUnit s p q) = paddedPage s := rfl
  unfold completeAndRespond completeDataFrame
  rw [hpadded]
  cases readFrameBytes (paddedPage s) 0 Config.coveredLen <;> rfl

theorem readRegister_withCrcUnit {r : Nat} (h1 : r ≠ 1) (h2 : r ≠ 2) :
    readRegister (withCrcUnit s p q) r = readRegister s r :=
  match r with
  | 0 | 3 | 4 | _ + 5 => rfl
  | 1 => absurd rfl h1
  | 2 => absurd rfl h2

theorem execReadReg_withCrcUnit {r : Nat} (h1 : r ≠ 1) (h2 : r ≠ 2) :
    execReadReg r (withCrcUnit s p q) = mapNext (withCrcUnit · p q) (execReadReg r s) := by
  unfold execReadReg
  rw [readRegister_withCrcUnit s p q h1 h2]
  cases readRegister s r with
  | none => exact next_reject_withCrcUnit s p q _
  | some v => rfl

theorem execFbData_withCrcUnit (b : Byte) :
    execFbData b (withCrcUnit s p q) = mapNext (withCrcUnit · p q) (execFbData b s) := by
  refine ite_eq_mapNext (next_reject_withCrcUnit s p q _) (ite_eq_mapNext (next_reject_withCrcUnit s p q _) ?_)
  have hwrite : writeFrameByte (withCrcUnit s p q).fbBuf (dataIndex (withCrcUnit s p q)) b
      = writeFrameByte s.fbBuf (dataIndex s) b := rfl
  rw [hwrite]
  cases writeFrameByte s.fbBuf (dataIndex s) b with
  | error f => rfl
  | ok m => exact ite_eq_mapNext (completeAndRespond_withCrcUnit { s with fbBuf := m, fill := s.fill + 1 } p q) rfl

theorem execFbEnd_withCrcUnit :
    execFbEnd (withCrcUnit s p q) = mapNext (withCrcUnit · p q) (execFbEnd s) :=
  ite_eq_mapNext (next_reject_withCrcUnit s p q _) (ite_eq_mapNext rfl (completeAndRespond_withCrcUnit s p q))

theorem execFbRead_withCrcUnit (k : Nat) :
    execFbRead k (withCrcUnit s p q) = mapNext (withCrcUnit · p q) (execFbRead k s) := by
  refine ite_eq_mapNext (next_reject_withCrcUnit s p q _) (ite_eq_mapNext (next_reject_withCrcUnit s p q _) ?_)
  have hbuf : (withCrcUnit s p q).fbBuf = s.fbBuf := rfl
  rw [hbuf]
  cases readFrameByte s.fbBuf k <;> rfl

theorem execFbAck_withCrcUnit :
    execFbAck (withCrcUnit s p q) = mapNext (withCrcUnit · p q) (execFbAck s) :=
  ite_eq_mapNext (next_reject_withCrcUnit s p q _) rfl

theorem execFbSentinel_withCrcUnit :
    execFbSentinel (withCrcUnit s p q) = mapNext (withCrcUnit · p q) (execFbSentinel s) := by
  have hloaded : loadedSentinel (withCrcUnit s p q) = withCrcUnit (loadedSentinel s) p q := by
    simp only [loadedSentinel, withCrcUnit]
  rw [execFbSentinel_eq, execFbSentinel_eq, hloaded]
  exact ite_eq_mapNext (next_reject_withCrcUnit s p q _) (ite_eq_mapNext (next_reject_withCrcUnit s p q _) rfl)

end

/-- Settles O55, command by command: no check, write or response of another unit's command is about CRC_REG or CRC_OUT,
and the register numbers 1 and 2 are shut out. -/
theorem crcUnitIsIndependentOfTheOthers : Obligations.CrcUnitIsIndependentOfTheOthers := by
  intro i s p q hunit hreset hcrcReg hcrcOut
  cases i with
  | readReg r =>
    exact execReadReg_withCrcUnit s p q (fun h => hcrcReg (congrArg Instr.readReg h))
      (fun h => hcrcOut (congrArg Instr.readReg h))
  | fbData b => exact execFbData_withCrcUnit s p q b
  | fbEnd => exact execFbEnd_withCrcUnit s p q
  | fbRead k => exact execFbRead_withCrcUnit s p q k
  | fbAck => exact execFbAck_withCrcUnit s p q
  | fbSentinel => exact execFbSentinel_withCrcUnit s p q
  | clrErr | pmFeed | pmClear => rfl
  | reset => exact absurd rfl hreset
  | crcClear | crcByte | crcFinish => cases hunit

end Sys2Proof.Proofs
end
